-- ==== Sys2Proof/Word.lean ====
section
/-! DEFINITION. The words of the machine: the bit vectors that the spec treats as bits. -/

namespace Sys2Proof

/-- A byte of the program text. -/
abbrev Byte := BitVec 8

/-- An instruction word (30_encoding R56, R72: 32 bits). -/
abbrev Word32 := BitVec 32

/-- A general-purpose register, or an address (10_state R16, R17). -/
abbrev Word64 := BitVec 64

/-- The operand `X[t2, 64]:X[t, 64]` (30_encoding R59). -/
abbrev Word128 := BitVec 128

/-- VA[55:12], the number of a 4KB page (30_encoding R60). -/
abbrev PageNum := BitVec 44

/-- The number of a PE.  The source gives PEs no identifiers (60_exceptions R118): the model counts them from 0. -/
abbrev PEId := Nat

end Sys2Proof
end

