-- ==== Sys2Proof/Syntax.lean ====
section
/-! DEFINITION. The instructions at the assembly level (00_scope R6): a variant and two register numbers. -/

namespace Sys2Proof

/-- The two variants (00_scope R1). -/
inductive Variant where
  /-- `VALE2IS`, without the nXS qualifier. -/
  | vale2is
  /-- `VALE2ISNXS`, with the nXS qualifier. -/
  | vale2isnxs
  deriving DecidableEq, Repr

/-- The number of a general-purpose register as a five-bit field.  31 is no register of the file (10_state R16). -/
abbrev RegNum := BitVec 5

/-- One constructor per row of the opcode table.  `t` is the number of `<Xt>` and `t2` of `<Xt2>` (30_encoding R69). -/
inductive Instr where
  /-- `TLBIP VALE2IS, <Xt>, <Xt2>` (40 R74). -/
  | tlbipVale2is (t t2 : RegNum)
  /-- `TLBIP VALE2ISNXS, <Xt>, <Xt2>` (40 R77). -/
  | tlbipVale2isnxs (t t2 : RegNum)
  deriving DecidableEq, Repr

/-- The variant an instruction names. -/
def Instr.variant : Instr → Variant
  | .tlbipVale2is _ _ => .vale2is
  | .tlbipVale2isnxs _ _ => .vale2isnxs

/-- The number of `<Xt>`, the low half of the operand. -/
def Instr.t : Instr → RegNum
  | .tlbipVale2is t _ => t
  | .tlbipVale2isnxs t _ => t

/-- The number of `<Xt2>`, the high half of the operand. -/
def Instr.t2 : Instr → RegNum
  | .tlbipVale2is _ t2 => t2
  | .tlbipVale2isnxs _ t2 => t2

/-- The instruction (variant, `t`, `t2`) of 00_scope R6. -/
def Instr.make (v : Variant) (t t2 : RegNum) : Instr :=
  match v with
  | .vale2is => .tlbipVale2is t t2
  | .vale2isnxs => .tlbipVale2isnxs t t2

end Sys2Proof
end

