-- ==== Sys2Proof/Machine/Types.lean ====
section
/-! DEFINITION. The records that the state is made of: TLB entries, memory accesses, invalidation operations, and the names
they use.  Plain data throughout. -/

namespace Sys2Proof.Machine

/-- The Exception levels the pseudocode compares `PSTATE.EL` with (10_state R18). -/
inductive El where
  | el0 | el1 | el2 | el3
  deriving DecidableEq, Repr

/-- The two translation regimes the operation can name, `Regime_EL2` and `Regime_EL20` (10_state R20). -/
inductive Regime where
  | el2 | el20
  deriving DecidableEq, Repr

/-- The regime an entry was cached for: one of the two, or any other (10_state R28). -/
inductive EntryRegime where
  | tlbi (r : Regime)
  /-- A regime the spec does not name, told from others by a number that means nothing else. -/
  | other (n : Nat)
  deriving DecidableEq, Repr

/-- A Security state: an abstract value compared for equality only (10_state R24).
DESIGN CHOICE (log entry 18): values are told apart by a tag that means nothing else. -/
structure SecurityState where
  tag : Nat
  deriving DecidableEq, Repr, Inhabited

/-- The translation granules (20_memory R42 e). -/
inductive Granule where
  | kb4 | kb16 | kb64
  deriving DecidableEq, Repr, Inhabited

/-- The width of a translation table entry (10_state R28, 20_memory R42 a). -/
inductive DescBits where
  | d64 | d128
  deriving DecidableEq, Repr

/-- A level of the translation table walk (10_state R28). -/
abbrev Level := Fin 4

/-- A run of consecutive 4KB pages. -/
structure PageRange where
  first : PageNum
  pages : Nat
  deriving DecidableEq, Repr

/-- A TLB entry record, with exactly the attributes of 10_state R28.
DESIGN CHOICE (log entry 29): the predicate `covers` is a list of page ranges, which can say any set of pages. -/
structure Entry where
  stage1 : Bool
  descBits : DescBits
  regime : EntryRegime
  security : SecurityState
  ranges : List PageRange
  finalLevel : Bool
  granule : Granule
  level : Level
  isGlobal : Bool
  asid : BitVec 16
  deriving DecidableEq, Repr

/-- A memory access in flight (10_state R30). -/
structure MemAccess where
  pe : PEId
  uses : List Entry
  xs : BitVec 1
  complete : Bool
  deriving DecidableEq, Repr

/-- `VMID_NONE` (41 R86, R101). -/
inductive Vmid where
  | none
  deriving DecidableEq, Repr

/-- `Shareability_ISH` (41 R86). -/
inductive Shareability where
  | ish
  deriving DecidableEq, Repr

/-- `TLBILevel_Last` (41 R86, R93). -/
inductive TlbiLevel where
  | last
  deriving DecidableEq, Repr

/-- `TLBI_AllAttr` and `TLBI_ExcludeXS` (41 R86). -/
inductive TlbiAttr where
  | allAttr | excludeXS
  deriving DecidableEq, Repr

/-- The seven arguments of `AArch64.TLBIP_VA`, in the source's order (41 R85). -/
structure TlbipArgs where
  security : SecurityState
  regime : Regime
  vmid : Vmid
  shareability : Shareability
  level : TlbiLevel
  attr : TlbiAttr
  op128 : Word128
  deriving DecidableEq, Repr

/-- What an operation has to do on one PE of its domain (41 R85): `req[p]`, fixed at issue, and `todo[p]`. -/
structure Target where
  pe : PEId
  req : List Entry
  todo : List Entry
  deriving DecidableEq, Repr

/-- An invalidation operation record (41 R85).  Its domain is the list of its targets' PEs. -/
structure Op where
  args : TlbipArgs
  issuer : PEId
  targets : List Target
  deriving DecidableEq, Repr

/-- `op.domain` (41 R85, R97). -/
def Op.domain (op : Op) : List PEId := op.targets.map Target.pe

/-- One row of a granule table: pages `lo` to `hi` of a regime and Security state use `granule`. -/
structure GranuleRow where
  regime : Regime
  security : SecurityState
  lo : PageNum
  hi : PageNum
  granule : Granule
  deriving DecidableEq, Repr

/-- The parameter `Granule(regime, security, va)` (00_scope R7) as data: the first row that holds the page, else
`otherwise`.  DESIGN CHOICE (log entry 17). -/
structure GranuleTable where
  rows : List GranuleRow
  otherwise : Granule
  deriving DecidableEq, Repr, Inhabited

/-- The record of an exceptional outcome (60_exceptions R104, R106, R108; 92 D3, D4, D29). -/
inductive ExcRecord where
  /-- `Undefined(pe, pc, variant)`. -/
  | undefined (pe : PEId) (pc : Word64) (v : Variant)
  /-- `Trapped(pe, pc, variant, t, t2, target, code)`. -/
  | trapped (pe : PEId) (pc : Word64) (v : Variant) (t t2 : RegNum) (target : El) (code : Nat)
  deriving DecidableEq, Repr

/-- What the access checks decide (60_exceptions R110). -/
inductive AccessDecision where
  /-- The source's `UNDEFINED`. -/
  | undefined
  /-- The source's `AArch64.SystemAccessTrap(EL2, 0x14)`. -/
  | trapped
  /-- The call of `AArch64.TLBIP_VA` with this regime. -/
  | permit (r : Regime)
  deriving DecidableEq, Repr

/-- A step of an agent other than a PE. -/
inductive AgentMove where
  /-- `Remove(op, p, e)` for the `k`-th pending operation (41 R98).  With `shared` the step clears the entry from the
  `todo[p]` of every pending operation that holds it (41 R103). -/
  | remove (k : Nat) (p : PEId) (e : Entry) (shared : Bool)
  /-- Completion of the `k`-th pending operation (20_memory R43, R44). -/
  | complete (k : Nat)
  /-- An entry vanishes from a TLB without cause (10_state R29 a). -/
  | evict (p : PEId) (e : Entry)
  /-- The fill agent adds an entry to a TLB (10_state R29 b). -/
  | fill (p : PEId) (e : Entry)
  /-- An access agent starts an access (10_state R30). -/
  | beginAccess (p : PEId) (uses : List Entry) (xs : BitVec 1)
  /-- An access agent completes the `n`-th access (10_state R30). -/
  | endAccess (n : Nat)
  deriving DecidableEq, Repr

/-- What the scheduler lets happen next: a PE executes one instruction, or another agent makes a step. -/
inductive Move where
  | execute (p : PEId)
  | agent (m : AgentMove)
  deriving DecidableEq, Repr

end Sys2Proof.Machine
end

