-- ==== Sys2Proof/Config.lean ====
section
/-! DEFINITION. What an implementation fixes for a run (00_scope R7), and the free values of the model.  The configuration
stands in the state as plain data that no step writes (log entry 12), so a statement about every state is one about every
configuration. -/

namespace Sys2Proof

/-- The number of ASID bits supported (00_scope R7). -/
inductive AsidBits where
  | b8 | b16
  deriving DecidableEq, Repr

/-- The two readings of the TTL sentence (41 R95, R96). -/
inductive TtlReading where
  | allOrNothing | perEntry
  deriving DecidableEq, Repr

/-- The mapping `ss_of` from SCR_EL3 bits to a Security state (10_state R24): one value per value of NS without FEAT_RME,
one per value of `{NSE, NS}` with it. -/
structure SsOf where
  ns0 : Machine.SecurityState
  ns1 : Machine.SecurityState
  rme00 : Machine.SecurityState
  rme01 : Machine.SecurityState
  rme10 : Machine.SecurityState
  rme11 : Machine.SecurityState
  deriving DecidableEq, Repr

/-- The configuration (00_scope R7).  The five features are independent of each other (92 D30). -/
structure Config where
  featD128 : Bool
  featXS : Bool
  featTTL : Bool
  featLPA2 : Bool
  featRME : Bool
  haveEL2 : Bool
  asidBits : AsidBits
  ssOf : SsOf
  /-- `(p, q)` stands here when `q` is in the Inner Shareable domain of `p` (10_state R32). -/
  ish : List (PEId × PEId)
  ttlReading : TtlReading
  deriving DecidableEq, Repr

/-- FREE VALUE (log entry 13): what the TLB of each PE holds after reset: any set of entries (10_state R35). -/
opaque Config.resetTlb : PEId → List Machine.Entry

/-- FREE VALUE (log entry 13): the accesses in flight after reset (10_state R35). -/
opaque Config.resetAccesses : List Machine.MemAccess

/-- FREE VALUE (log entry 13): the granules each PE's translation controls select after reset (10_state R36). -/
opaque Config.resetGranules : PEId → Machine.GranuleTable

end Sys2Proof
end

