-- ==== Sys2Proof/WellFormed.lean ====
section
/-! DEFINITION. Which instructions are well formed at the assembly level, and which of them a 32-bit word can hold. -/

namespace Sys2Proof

/-- A register number of the file `x[0]` to `x[30]` (10_state R16: number 31 is not a register of this file). -/
def RegNum.inFile (r : RegNum) : Bool := r != 31#5

/-- Well formed at the assembly level: `t` and `t2` range over 0 to 30, equal or not (10_state R16, 30_encoding R57). -/
def Instr.wellFormed (i : Instr) : Bool := RegNum.inFile i.t && RegNum.inFile i.t2

/-- The forms a word holds (30_encoding R57): even `Rt` in 0 to 28 with `t2 = t + 1`. -/
def Instr.encodable (i : Instr) : Bool :=
  i.t.getLsbD 0 == false && decide (i.t.toNat ≤ 28) && i.t2 == i.t + 1#5

end Sys2Proof
end

