-- ==== Sys2Proof/Decode.lean ====
section
/-! DEFINITION. From bytes to instructions and back: the point of the System instruction encoding space (30_encoding R53 to
R55), the 32-bit word (R56), the register pair (R57), and the rejection by name of every other word (R68).
The layout of the word is general knowledge in the spec (G1, G2): log entries 1 and 2. -/

namespace Sys2Proof

/-- A point of the System instruction encoding space (30_encoding R55, 10_state R33 a). -/
structure SysPoint where
  op0 : BitVec 2
  op1 : BitVec 3
  crn : BitVec 4
  crm : BitVec 4
  op2 : BitVec 3
  deriving DecidableEq, Repr

/-- The field values that select each variant (30_encoding R53, R54). -/
def Variant.point : Variant → SysPoint
  | .vale2is => ⟨0b01#2, 0b100#3, 0b1000#4, 0b0011#4, 0b101#3⟩
  | .vale2isnxs => ⟨0b01#2, 0b100#3, 0b1001#4, 0b0011#4, 0b101#3⟩

/-- The variant that a point selects, if any. -/
def SysPoint.variant? (p : SysPoint) : Option Variant :=
  if p = Variant.point .vale2is then some .vale2is
  else if p = Variant.point .vale2isnxs then some .vale2isnxs
  else none

/-- Why bytes spell no instruction of the spec. -/
inductive DecodeReject where
  /-- Fewer than four bytes stand there (30_encoding R72). -/
  | tooShort
  /-- The word is no word of R53 to R58 (30_encoding R68: `Refused`). -/
  | notThisInstruction (w : Word32)
  /-- `Rt` is odd and not 31 (30_encoding R57: `Refused`). -/
  | oddRt (rt : RegNum)
  /-- `Rt` is 30, whose partner 31 is no register of the file (30_encoding R57: `Refused`). -/
  | rt30
  /-- `Rt` is 31, the form without registers (30_encoding R57, R70: `Refused`). -/
  | rt31
  deriving DecidableEq, Repr

/-- What a decoder answers. -/
inductive Decoded where
  | ok (i : Instr)
  | reject (r : DecodeReject)
  deriving DecidableEq, Repr

/-- The fixed bits [31:22] of a `SYSP` word (30_encoding R56). -/
def syspPrefix : BitVec 10 := 0b1101010101#10

/-- The five selecting fields of a word (30_encoding R56). -/
def pointOfWord (w : Word32) : SysPoint :=
  { op0 := w.extractLsb' 19 2, op1 := w.extractLsb' 16 3, crn := w.extractLsb' 12 4,
    crm := w.extractLsb' 8 4, op2 := w.extractLsb' 5 3 }

/-- The register field of a word (30_encoding R56). -/
def rtOfWord (w : Word32) : RegNum := w.extractLsb' 0 5

/-- From the register field to `t` and `t2` (30_encoding R57). -/
def decodePair (v : Variant) (rt : RegNum) : Decoded :=
  if rt = 31#5 then .reject .rt31
  else if rt = 30#5 then .reject .rt30
  else if rt.getLsbD 0 then .reject (.oddRt rt)
  else .ok (Instr.make v rt (rt + 1#5))

/-- The instruction a 32-bit word spells (30_encoding R56 to R58), or the reason it spells none. -/
def decodeWord (w : Word32) : Decoded :=
  if w.extractLsb' 22 10 = syspPrefix ∧ w.getLsbD 21 = false then
    match (pointOfWord w).variant? with
    | some v => decodePair v (rtOfWord w)
    | none => .reject (.notThisInstruction w)
  else .reject (.notThisInstruction w)

/-- Four bytes, lowest address first, as one little-endian word (20_memory R38). -/
def wordOfBytes (b0 b1 b2 b3 : Byte) : Word32 := b3 ++ b2 ++ b1 ++ b0

/-- The bytes of a word in memory, lowest address first (20_memory R38). -/
def bytesOfWord (w : Word32) : List Byte :=
  [w.extractLsb' 0 8, w.extractLsb' 8 8, w.extractLsb' 16 8, w.extractLsb' 24 8]

/-- Decoding of the bytes at an instruction's address, total: an instruction and the bytes after it, or the reason there
is none. -/
def decode : List Byte → Decoded × List Byte
  | b0 :: b1 :: b2 :: b3 :: rest => (decodeWord (wordOfBytes b0 b1 b2 b3), rest)
  | bs => (.reject .tooShort, bs)

/-- The host's question: the instruction of a table row's word, laid out in memory and decoded from there. -/
def decodeTableWord (nbits w : Nat) : Option Instr :=
  match (decode (bytesOfWord (BitVec.ofNat 32 (w % 2 ^ nbits)))).1 with
  | .ok i => some i
  | .reject _ => none

/-- The word of a variant and a register field (30_encoding R56). -/
def encodeWord (v : Variant) (rt : RegNum) : Word32 :=
  syspPrefix ++ 0#1 ++ v.point.op0 ++ v.point.op1 ++ v.point.crn ++ v.point.crm ++ v.point.op2 ++ rt

/-- The word of an instruction, for the forms a word can hold (30_encoding R57). -/
def encode (i : Instr) : Option Word32 :=
  if i.encodable then some (encodeWord i.variant i.t) else none

end Sys2Proof
end

