-- ==== Sys2Proof/Machine/State.lean ====
section
/-! DEFINITION. The state of the machine (10_state R15), the reasons a step can stop, and the state after reset. -/

namespace Sys2Proof.Machine

/-- The program text: (address, byte) pairs, addresses strictly rising.  An unlisted address holds no value (log entry 4). -/
abbrev Memory := List Host.Cell

/-- `PSTATE`, as far as the source names it (10_state R18, R19). -/
structure PState where
  el : El
  deriving DecidableEq, Repr

/-- `HCR_EL2`, as far as the source names it (10_state R20, R21). -/
structure HcrEl2 where
  e2h : BitVec 1
  nv : BitVec 1
  deriving DecidableEq, Repr

/-- `SCR_EL3`, as far as the source names it (10_state R22). -/
structure ScrEl3 where
  ns : BitVec 1
  nse : BitVec 1
  deriving DecidableEq, Repr

/-- One processing element (10_state R15). -/
structure Pe where
  /-- `x[0]` to `x[30]` (10_state R16). -/
  x : Vector Word64 31
  /-- The address of the instruction (10_state R17). -/
  pc : Word64
  pstate : PState
  hcrEl2 : HcrEl2
  scrEl3 : ScrEl3
  /-- What the parameter `EL2Enabled` (10_state R23) says for this PE below EL2 and at EL3; see `el2Enabled`. -/
  el2On : Bool
  /-- The parameter `Granule` (00_scope R7) for this PE; see `granuleUsed`. -/
  granules : GranuleTable
  /-- `tlb[pe]` (10_state R27): a set of entries. -/
  tlb : List Entry
  /-- The record of an Undefined or Trapped outcome, never cleared (92 D3, D4). -/
  exc : Option ExcRecord
  deriving DecidableEq, Repr

/-- The state of the whole machine.  `cur` and `agenda` are the model's own: they say who moves next (log entry 23). -/
structure State where
  /-- The configuration, fixed for a run (00_scope R7). -/
  cfg : Config
  /-- The program text (10_state R36). -/
  mem : Memory
  /-- The PEs, numbered by their place (60_exceptions R118). -/
  pes : List Pe
  /-- The PE that executes when the agenda is empty. -/
  cur : PEId
  /-- The in-flight memory accesses (10_state R30). -/
  accesses : List MemAccess
  /-- The issued, not yet complete operations, oldest first (10_state R31). -/
  pending : List Op
  /-- The moves the scheduler has lined up, next one first. -/
  agenda : List Move
  deriving DecidableEq, Repr

/-- Why the machine stops with a fault. -/
inductive Fault where
  /-- Raised by fetching where the program text has no byte.  Safe: the model stops. -/
  | fetchUnwritten (addr : Nat)
  /-- Raised when a PE that holds an exception record is to execute: the source describes no exception entry, and the
  record is never cleared (92 D3, D4).  Safe: the model stops. -/
  | exceptionRecorded (r : ExcRecord)
  deriving DecidableEq, Repr

/-- The model's own answer `Refused` (00_scope R12): no meaning, no claim about the chip. -/
inductive Refusal where
  /-- Raised by an arm of `exec` without a meaning.  Safe. -/
  | notModelled (mnemonic : String)
  /-- Raised by decoding: the word spells no instruction of the spec (30_encoding R57, R68, R70).  Safe. -/
  | notDecoded (why : DecodeReject)
  /-- Raised by executing on a PE that does not exist.  Safe. -/
  | noSuchPe (p : PEId)
  /-- Raised by executing at a `pc` that is not a multiple of 4 (10_state R17).  Safe. -/
  | pcMisaligned (pc : Word64)
  /-- Raised by executing at `pc = 2^64 - 4` (10_state R17).  Safe. -/
  | pcAtTop
  /-- Raised by an instruction that names register number 31 (10_state R16).  Safe. -/
  | registerNotInFile
  /-- Raised by a 1 in a reserved operand bit (30_encoding R66).  Safe. -/
  | reservedOperandBit (op128 : Word128)
  /-- Raised by a non-zero upper ASID byte with 8-bit ASIDs in the EL2&0 regime (41 R94).  Safe. -/
  | asidUpperByte (asid : BitVec 16)
  /-- Raised by a scheduled move that the spec does not enable in this state: no step of the machine.  Safe. -/
  | moveNotEnabled (m : AgentMove)
  deriving DecidableEq, Repr

/-- The configuration after reset.  DESIGN CHOICE (log entry 11): everything implemented, two PEs in one domain. -/
def resetConfig : Config :=
  { featD128 := true, featXS := true, featTTL := true, featLPA2 := true, featRME := true, haveEL2 := true,
    asidBits := .b16, ssOf := ⟨⟨0⟩, ⟨1⟩, ⟨0⟩, ⟨1⟩, ⟨2⟩, ⟨3⟩⟩,
    ish := [(0, 0), (0, 1), (1, 0), (1, 1)], ttlReading := .allOrNothing }

/-- A PE after reset.  The source gives no reset value (10_state R35).  The registers hold the values of log entries 6 to
10; the TLB and the granules are free values (log entry 13). -/
def resetPe (p : PEId) : Pe :=
  { x := Vector.replicate 31 0#64, pc := 0#64, pstate := ⟨.el3⟩, hcrEl2 := ⟨0#1, 0#1⟩, scrEl3 := ⟨0#1, 0#1⟩,
    el2On := false, granules := Config.resetGranules p, tlb := (Config.resetTlb p).dedup, exc := none }

/-- The machine right after reset (10_state R35, 70 R125: the source gives no value; the log entries name each). -/
def State.reset : State :=
  { cfg := resetConfig, mem := [], pes := [resetPe 0, resetPe 1], cur := 0,
    accesses := Config.resetAccesses, pending := [], agenda := [] }

end Sys2Proof.Machine
end

