-- ==== Sys2Proof/Machine/Flags.lean ====
section
/-! DEFINITION. What the control bits decide.  The spec has no condition flag and no status flag (10_state R19); the bits the
instruction reads are `HCR_EL2.E2H`, `HCR_EL2.NV`, `SCR_EL3.NS` and `SCR_EL3.NSE`. -/

namespace Sys2Proof.Machine

/-- `EL2Enabled()` (10_state R23): false without EL2, true at EL2, elsewhere the parameter's value for the PE
(log entry 16). -/
def el2Enabled (c : Config) (p : Pe) : Bool := c.haveEL2 && (p.pstate.el == .el2 || p.el2On)

/-- `ss_of` (10_state R24): NSE is ignored without FEAT_RME. -/
def ssOf (c : Config) (nse ns : BitVec 1) : SecurityState :=
  if c.featRME then
    if nse = 1#1 then (if ns = 1#1 then c.ssOf.rme11 else c.ssOf.rme10)
    else (if ns = 1#1 then c.ssOf.rme01 else c.ssOf.rme00)
  else (if ns = 1#1 then c.ssOf.ns1 else c.ssOf.ns0)

/-- `SecurityStateAtEL(EL2)` (10_state R24), the same at EL2 and at EL3. -/
def securityStateAtEL2 (c : Config) (p : Pe) : SecurityState := ssOf c p.scrEl3.nse p.scrEl3.ns

/-- The regime that `HCR_EL2.E2H` selects (10_state R20). -/
def regimeSelected (p : Pe) : Regime := if p.hcrEl2.e2h = 1#1 then .el20 else .el2

end Sys2Proof.Machine
end

