-- ==== Sys2Proof/Machine/Operands.lean ====
section
/-! DEFINITION. The 128-bit operand: how it is assembled, its fields, its reserved bits, and the TTL hint (30_encoding R59 to
R67). -/

namespace Sys2Proof.Machine

/-- `X[t, 64]` (10_state R16); there is no register 31. -/
def readX (p : Pe) (t : RegNum) : Option Word64 := p.x.toList[t.toNat]?

/-- Operand assembly (30_encoding R59): `x[t2]` is the high half. -/
def op128Of (lo hi : Word64) : Word128 := hi ++ lo

/-- VA[55:12], operand bits [107:64] (30_encoding R60). -/
def vaOf (op128 : Word128) : PageNum := op128.extractLsb' 64 44

/-- The ASID field, operand bits [63:48] (30_encoding R62). -/
def asidOf (op128 : Word128) : BitVec 16 := op128.extractLsb' 48 16

/-- The TTL field, operand bits [47:44] (30_encoding R61). -/
def ttlOf (op128 : Word128) : BitVec 4 := op128.extractLsb' 44 4

/-- `ttl[3:2]`, raw: operand bits [47:46] (41 R90). -/
def ttlGranuleBits (op128 : Word128) : BitVec 2 := (ttlOf op128).extractLsb' 2 2

/-- `Res0OK` (30_encoding R66). -/
def res0OK (c : Config) (op128 : Word128) : Bool :=
  op128.extractLsb' 108 20 == 0#20 && op128.extractLsb' 0 44 == 0#44 && (c.featTTL || ttlOf op128 == 0#4)

/-- `TTLHint` (30_encoding R64): none, or the granule and level that software names. -/
def ttlHint (c : Config) (ttl : BitVec 4) : Option (Granule × Level) :=
  if !c.featTTL then none
  else if ttl = 0b0100#4 then (if c.featLPA2 then some (.kb4, 0) else none)
  else if ttl = 0b0101#4 then some (.kb4, 1)
  else if ttl = 0b0110#4 then some (.kb4, 2)
  else if ttl = 0b0111#4 then some (.kb4, 3)
  else if ttl = 0b1001#4 then (if c.featLPA2 then some (.kb16, 1) else none)
  else if ttl = 0b1010#4 then some (.kb16, 2)
  else if ttl = 0b1011#4 then some (.kb16, 3)
  else if ttl = 0b1101#4 then some (.kb64, 1)
  else if ttl = 0b1110#4 then some (.kb64, 2)
  else if ttl = 0b1111#4 then some (.kb64, 3)
  else none

/-- `k`, the number of low VA bits a granule makes ineffective (41 R92). -/
def granuleBits : Granule → Nat
  | .kb4 => 0
  | .kb16 => 2
  | .kb64 => 4

/-- The pages of the granule-sized, granule-aligned block that holds a page (41 R92). -/
def blockPages (g : Granule) (va : PageNum) : List PageNum :=
  (List.range (2 ^ granuleBits g)).map fun i =>
    BitVec.ofNat 44 (va.toNat / 2 ^ granuleBits g * 2 ^ granuleBits g + i)

/-- A page with the low VA bits of a granule cleared. -/
def blockBase (g : Granule) (va : PageNum) : PageNum :=
  BitVec.ofNat 44 (va.toNat / 2 ^ granuleBits g * 2 ^ granuleBits g)

/-- Whether a granule row is about this regime, Security state and page. -/
def rowHolds (r : Regime) (ss : SecurityState) (va : PageNum) (row : GranuleRow) : Bool :=
  row.regime == r && row.security == ss && decide (row.lo.toNat ≤ va.toNat) && decide (va.toNat ≤ row.hi.toNat)

/-- What a granule table says of one page. -/
def tableGranule (t : GranuleTable) (r : Regime) (ss : SecurityState) (va : PageNum) : Granule :=
  match t.rows.find? (rowHolds r ss va) with
  | some row => row.granule
  | none => t.otherwise

/-- The parameter `Granule(regime, security, va)` (00_scope R7, 41 R92): the largest granule the table names at the base of
the page's block of that granule, so that the ignored bits do not decide it (log entry 17). -/
def granuleUsed (t : GranuleTable) (r : Regime) (ss : SecurityState) (va : PageNum) : Granule :=
  if tableGranule t r ss (blockBase .kb64 va) = .kb64 then .kb64
  else if tableGranule t r ss (blockBase .kb16 va) = .kb16 then .kb16
  else .kb4

end Sys2Proof.Machine
end

