-- ==== Sys2Proof/Machine/Invalidation.lean ====
section
/-! DEFINITION. Which entries an operation must invalidate (41 R88 to R96) and when it is complete (20_memory R43, R44). -/

namespace Sys2Proof.Machine

/-- `e.covers(va)` (10_state R28). -/
def covers (e : Entry) (va : PageNum) : Bool :=
  e.ranges.any fun r => decide (r.first.toNat ≤ va.toNat) && decide (va.toNat < r.first.toNat + r.pages)

/-- `CoversMasked(e, va)` (41 R92): the entry covers the whole block of the granule in use. -/
def coversMasked (g : Granule) (e : Entry) (va : PageNum) : Bool := (blockPages g va).all (covers e)

/-- `DescOK(op, e)` (41 R90), on the raw operand bits [47:46]. -/
def descOK (a : TlbipArgs) (e : Entry) : Bool :=
  e.descBits == .d64 || (e.descBits == .d128 && ttlGranuleBits a.op128 == 0b00#2)

/-- `RegimeVA(op, e)` (41 R91). -/
def regimeVA (g : Granule) (a : TlbipArgs) (e : Entry) : Bool :=
  e.regime == .tlbi a.regime && e.security == a.security && coversMasked g e (vaOf a.op128)

/-- Whether an entry's ASID tag matches the ASID field: all 16 bits, or the low 8 where 8 are supported (41 R94). -/
def asidMatches (c : Config) (field tag : BitVec 16) : Bool :=
  match c.asidBits with
  | .b16 => tag == field
  | .b8 => tag.extractLsb' 0 8 == field.extractLsb' 0 8

/-- `AsidOK(op, e)` (41 R94). -/
def asidOK (c : Config) (a : TlbipArgs) (e : Entry) : Bool :=
  match a.regime with
  | .el2 => true
  | .el20 => e.isGlobal || asidMatches c (asidOf a.op128) e.asid

/-- `Match(op, e)` (41 R88). -/
def matchEntry (c : Config) (g : Granule) (a : TlbipArgs) (e : Entry) : Bool :=
  e.stage1 && descOK a e && regimeVA g a e && e.finalLevel && asidOK c a e

/-- `Agrees(op, e)` (41 R95). -/
def agrees (c : Config) (a : TlbipArgs) (e : Entry) : Bool :=
  match ttlHint c (ttlOf a.op128) with
  | none => true
  | some h => h == (e.granule, e.level)

/-- `Cand(op, T)` (41 R96). -/
def candidates (c : Config) (g : Granule) (a : TlbipArgs) (tlb : List Entry) : List Entry :=
  tlb.filter (matchEntry c g a)

/-- `Req(op, T)` (41 R96), in the reading the configuration selects. -/
def required (c : Config) (g : Granule) (a : TlbipArgs) (tlb : List Entry) : List Entry :=
  match c.ttlReading with
  | .allOrNothing =>
    if (candidates c g a tlb).all (agrees c a) then candidates c g a tlb else []
  | .perEntry => (candidates c g a tlb).filter (agrees c a)

/-- Whether a target's PE has this access, translated with one of the target's required entries (20_memory R43 (2)). -/
def usesRequired (t : Target) (a : MemAccess) : Bool := a.pe == t.pe && a.uses.any fun e => t.req.contains e

/-- Whether an operation waits for an access that uses a required entry: every one, or with `TLBI_ExcludeXS` only those
with XS attribute 0 (20_memory R43, R44). -/
def waitsFor (attr : TlbiAttr) (a : MemAccess) : Bool :=
  match attr with
  | .allAttr => true
  | .excludeXS => a.xs == 0#1

/-- The completion condition (20_memory R43, R44). -/
def canComplete (accesses : List MemAccess) (op : Op) : Bool :=
  op.targets.all fun t =>
    t.todo.isEmpty && accesses.all fun a => !(usesRequired t a && waitsFor op.args.attr a) || a.complete

end Sys2Proof.Machine
end

