-- ==== Sys2Proof/Machine/Ops.lean ====
section
/-! DEFINITION. The shared operations: the program text, the executing PE, the access checks, the two exceptional outcomes,
and the issue of an invalidation operation. -/

namespace Sys2Proof.Machine

/-- What a step answers. -/
abbrev Result (α : Type) := Host.Outcome α Fault Refusal

/-- Go on with the answer of a first part, or stop where it stopped. -/
def andThen {α β : Type} (o : Result α) (f : α → Result β) : Result β :=
  match o with
  | .next a => f a
  | .fault r => .fault r
  | .refused r => .refused r

/-- The canonical form of a memory from an address on: addresses rise strictly and lie in the 64-bit address space. -/
def wfFrom : Nat → Memory → Bool
  | _, [] => true
  | lo, c :: m => decide (lo ≤ c.1) && decide (c.1 < 2 ^ 64) && wfFrom (c.1 + 1) m

/-- The canonical form of a memory (log entry 4). -/
def Memory.wf (m : Memory) : Bool := wfFrom 0 m

/-- The byte at an address; an unlisted address holds none (log entry 4). -/
def readByte : Memory → Nat → Option Byte
  | [], _ => none
  | c :: m, a => if c.1 = a then some c.2 else readByte m a

/-- Memory with one byte written, in canonical form.  An address outside the 64-bit address space holds nothing. -/
def insertByte (a : Nat) (b : Byte) : Memory → Memory
  | [] => [(a, b)]
  | c :: m => if a < c.1 then (a, b) :: c :: m else if a = c.1 then (a, b) :: m else c :: insertByte a b m

/-- A byte written at an address of the 64-bit address space. -/
def writeByte (m : Memory) (a : Nat) (b : Byte) : Memory := if a < 2 ^ 64 then insertByte a b m else m

/-- Consecutive bytes written from an address on. -/
def writeBytes : Memory → Nat → List Byte → Memory
  | m, _, [] => m
  | m, a, b :: bs => writeBytes (writeByte m a b) (a + 1) bs

/-- One byte of an instruction; a byte that nothing has placed faults. -/
def fetchByte (m : Memory) (a : Nat) : Result Byte :=
  match readByte m a with
  | some b => .next b
  | none => .fault (.fetchUnwritten a)

/-- The 32-bit little-endian word at an address (20_memory R38). -/
def readWord (m : Memory) (a : Nat) : Result Word32 :=
  andThen (fetchByte m a) fun b0 => andThen (fetchByte m (a + 1)) fun b1 =>
    andThen (fetchByte m (a + 2)) fun b2 => andThen (fetchByte m (a + 3)) fun b3 => .next (wordOfBytes b0 b1 b2 b3)

/-- The state with one PE changed. -/
def State.updPe (s : State) (p : PEId) (f : Pe → Pe) : State := { s with pes := s.pes.modify p f }

/-- The last word of the address space, from which `pc + 4` would wrap (10_state R17). -/
def topPc : Word64 := 0xFFFFFFFFFFFFFFFC#64

/-- The executing PE, if it can execute: it exists, it holds no exception record (92 D3, D4), and its `pc` is one the spec
gives a meaning (10_state R17). -/
def executingPe (s : State) : Result Pe :=
  match s.pes[s.cur]? with
  | none => .refused (.noSuchPe s.cur)
  | some p =>
    match p.exc with
    | some r => .fault (.exceptionRecorded r)
    | none =>
      if p.pc.extractLsb' 0 2 ≠ 0#2 then .refused (.pcMisaligned p.pc)
      else if p.pc = topPc then .refused .pcAtTop
      else .next p

/-- Fetch the word at the executing PE's `pc`.  The fetch is not translated (log entry 3). -/
def fetch (s : State) : Result Word32 := andThen (executingPe s) fun p => readWord s.mem p.pc.toNat

/-- The access checks, in the order of 60_exceptions R110. -/
def accessCheck (v : Variant) (c : Config) (p : Pe) : AccessDecision :=
  if !c.featD128 then .undefined
  else if v = .vale2isnxs ∧ c.featXS = false then .undefined
  else
    match p.pstate.el with
    | .el0 => .undefined
    | .el1 => if el2Enabled c p && p.hcrEl2.nv == 1#1 then .trapped else .undefined
    | .el2 => .permit (regimeSelected p)
    | .el3 => if el2Enabled c p then .permit (regimeSelected p) else .undefined

/-- Take an exceptional outcome: record it on the executing PE and change nothing else (60_exceptions R104, R106, R113;
92 D3, D4).  The spec defines no entry sequence (R112) and no return (R115). -/
def State.takeException (s : State) (r : ExcRecord) : State := s.updPe s.cur fun p => { p with exc := some r }

/-- The code that the trap reports (60_exceptions R107). -/
def trapCode : Nat := 0x14

/-- `raise Undefined()` (60_exceptions R104). -/
def State.raiseUndefined (s : State) (p : Pe) (v : Variant) : State :=
  s.takeException (.undefined s.cur p.pc v)

/-- `raise SystemAccessTrap(EL2, 0x14)` (60_exceptions R106). -/
def State.raiseTrap (s : State) (p : Pe) (v : Variant) (t t2 : RegNum) : State :=
  s.takeException (.trapped s.cur p.pc v t t2 .el2 trapCode)

/-- `ISDomain(pe)` (10_state R32): the PE itself and those the configuration puts beside it. -/
def isDomain (s : State) (p : PEId) : List PEId :=
  (List.range s.pes.length).filter fun q => q == p || s.cfg.ish.contains (p, q)

/-- The content of a PE's TLB. -/
def tlbOf (s : State) (p : PEId) : List Entry :=
  match s.pes[p]? with
  | some pe => pe.tlb
  | none => []

/-- What an operation has to do on one PE: the required set of its TLB as it is at issue (41 R87, R96). -/
def targetAt (s : State) (g : Granule) (a : TlbipArgs) (q : PEId) : Target :=
  { pe := q, req := required s.cfg g a (tlbOf s q), todo := required s.cfg g a (tlbOf s q) }

/-- The operation record of a call of `AArch64.TLBIP_VA` by the executing PE `p` (41 R85, R87).  The granule in use is that
of the issuer (41 R92, R97). -/
def newOp (s : State) (p : Pe) (a : TlbipArgs) : Op :=
  { args := a, issuer := s.cur,
    targets := (isDomain s s.cur).map
      (targetAt s (granuleUsed p.granules a.regime a.security (vaOf a.op128)) a) }

/-- `TLBIP_VA(...)` (41 R87): the record joins `pending`, nothing else changes. -/
def State.issue (s : State) (op : Op) : State := { s with pending := s.pending ++ [op] }

/-- `pc <- pc + 4` on the executing PE (10_state R17). -/
def State.advancePc (s : State) : State := s.updPe s.cur fun p => { p with pc := p.pc + 4#64 }

/-- The attribute each variant passes (40 R74, R77). -/
def attrOf : Variant → TlbiAttr
  | .vale2is => .allAttr
  | .vale2isnxs => .excludeXS

/-- The arguments of the call (40 R74, R77). -/
def argsOf (v : Variant) (c : Config) (p : Pe) (r : Regime) (op128 : Word128) : TlbipArgs :=
  { security := securityStateAtEL2 c p, regime := r, vmid := .none, shareability := .ish, level := .last,
    attr := attrOf v, op128 := op128 }

/-- Whether 8-bit ASIDs leave the ASID field without a meaning (41 R94, 92 D16). -/
def asidUnstated (c : Config) (r : Regime) (op128 : Word128) : Bool :=
  c.asidBits == .b8 && r == .el20 && (asidOf op128).extractLsb' 8 8 != 0#8

/-- Both operand registers, where both are registers of the file (10_state R16). -/
def readOperand (p : Pe) (t t2 : RegNum) : Result Word128 :=
  match readX p t, readX p t2 with
  | some lo, some hi => .next (op128Of lo hi)
  | _, _ => .refused .registerNotInFile

/-- The step of a variant after its access checks have passed: the operand is read, then tested (40 R79), then the
operation is issued and `pc` advances (40 R74, R77). -/
def issueStep (v : Variant) (t t2 : RegNum) (s : State) (p : Pe) (r : Regime) : Result State :=
  andThen (readOperand p t t2) fun op128 =>
    if res0OK s.cfg op128 = false then .refused (.reservedOperandBit op128)
    else if asidUnstated s.cfg r op128 then .refused (.asidUpperByte (asidOf op128))
    else .next (s.issue (newOp s p (argsOf v s.cfg p r op128))).advancePc

/-- One execution of a variant by the executing PE (40 R74, R77; the order is that of 60_exceptions R110).
A number that names no register is refused first (10_state R16; log entry 37). -/
def tlbip (v : Variant) (t t2 : RegNum) (s : State) : Result State :=
  andThen (executingPe s) fun p =>
    if (RegNum.inFile t && RegNum.inFile t2) = false then .refused .registerNotInFile
    else
      match accessCheck v s.cfg p with
      | .undefined => .next (s.raiseUndefined p v)
      | .trapped => .next (s.raiseTrap p v t t2)
      | .permit r => issueStep v t t2 s p r

end Sys2Proof.Machine
end

