-- ==== Sys2Proof/Machine/Agents.lean ====
section
/-! DEFINITION. The steps of the agents other than the PEs: removal and completion of operations (41 R98, 20_memory R43, R44),
vanishing and filling of entries (10_state R29), starting and ending of accesses (10_state R30). -/

namespace Sys2Proof.Machine

/-- A target with an entry cleared from its `todo`. -/
def Target.clear (p : PEId) (e : Entry) (t : Target) : Target :=
  if t.pe = p then { t with todo := t.todo.filter fun e' => e' != e } else t

/-- `op.todo[p] <- op.todo[p] \ {e}` (41 R98). -/
def Op.clear (p : PEId) (e : Entry) (op : Op) : Op := { op with targets := op.targets.map (Target.clear p e) }

/-- Whether `e` is in `op.todo[p]`. -/
def Op.hasTodo (op : Op) (p : PEId) (e : Entry) : Bool := op.targets.any fun t => t.pe == p && t.todo.contains e

/-- `tlb[p] <- tlb[p] \ {e}` (41 R98, 10_state R29 a). -/
def State.dropEntry (s : State) (p : PEId) (e : Entry) : State :=
  s.updPe p fun pe => { pe with tlb := pe.tlb.filter fun e' => e' != e }

/-- An entry joins a TLB, which is a set (10_state R27, R29 b). -/
def State.addEntry (s : State) (p : PEId) (e : Entry) : State :=
  s.updPe p fun pe => { pe with tlb := if pe.tlb.contains e then pe.tlb else e :: pe.tlb }

/-- `Remove(op, p, e)` for the `k`-th pending operation (41 R98, R103). -/
def removeStep (s : State) (k : Nat) (p : PEId) (e : Entry) (shared : Bool) : Result State :=
  match s.pending[k]? with
  | none => .refused (.moveNotEnabled (.remove k p e shared))
  | some op =>
    if op.hasTodo p e then
      .next { s.dropEntry p e with
        pending := if shared then s.pending.map (Op.clear p e) else s.pending.modify k (Op.clear p e) }
    else .refused (.moveNotEnabled (.remove k p e shared))

/-- Completion of the `k`-th pending operation (20_memory R43, R44): it leaves `pending`. -/
def completeStep (s : State) (k : Nat) : Result State :=
  match s.pending[k]? with
  | none => .refused (.moveNotEnabled (.complete k))
  | some op =>
    if canComplete s.accesses op then .next { s with pending := s.pending.eraseIdx k }
    else .refused (.moveNotEnabled (.complete k))

/-- An entry vanishes (10_state R29 a). -/
def evictStep (s : State) (p : PEId) (e : Entry) : Result State :=
  if (tlbOf s p).contains e then .next (s.dropEntry p e) else .refused (.moveNotEnabled (.evict p e))

/-- The fill agent adds an entry (10_state R29 b), 128 bits wide only with FEAT_D128 (20_memory R42 a). -/
def fillStep (s : State) (p : PEId) (e : Entry) : Result State :=
  if p < s.pes.length ∧ (e.descBits = .d128 → s.cfg.featD128 = true) then .next (s.addEntry p e)
  else .refused (.moveNotEnabled (.fill p e))

/-- An access starts (10_state R30). -/
def beginAccessStep (s : State) (p : PEId) (uses : List Entry) (xs : BitVec 1) : Result State :=
  if p < s.pes.length then
    .next { s with accesses := s.accesses ++ [{ pe := p, uses := uses, xs := xs, complete := false }] }
  else .refused (.moveNotEnabled (.beginAccess p uses xs))

/-- The `n`-th access completes (10_state R30). -/
def endAccessStep (s : State) (n : Nat) : Result State :=
  match s.accesses[n]? with
  | none => .refused (.moveNotEnabled (.endAccess n))
  | some a =>
    if a.complete then .refused (.moveNotEnabled (.endAccess n))
    else .next { s with accesses := s.accesses.modify n fun a => { a with complete := true } }

/-- One step of an agent. -/
def agentStep (m : AgentMove) (s : State) : Result State :=
  match m with
  | .remove k p e shared => removeStep s k p e shared
  | .complete k => completeStep s k
  | .evict p e => evictStep s p e
  | .fill p e => fillStep s p e
  | .beginAccess p uses xs => beginAccessStep s p uses xs
  | .endAccess n => endAccessStep s n

end Sys2Proof.Machine
end

