-- ==== Sys2Proof/Machine/Tlbip.lean ====
section
/-! DEFINITION. The meanings of the two instructions (40 R74, R77). -/

namespace Sys2Proof.Machine

/-- `TLBIP VALE2IS, <Xt>, <Xt2>` (40 R74, R75). -/
def execTlbipVale2is (t t2 : RegNum) (s : State) : Host.Outcome State Fault Refusal := tlbip .vale2is t t2 s

/-- `TLBIP VALE2ISNXS, <Xt>, <Xt2>` (40 R77, R78). -/
def execTlbipVale2isnxs (t t2 : RegNum) (s : State) : Host.Outcome State Fault Refusal := tlbip .vale2isnxs t t2 s

end Sys2Proof.Machine
end

