-- ==== Sys2Proof/Machine/Dispatch.lean ====
section
/-! DEFINITION. One arm per constructor of Instr, each a direct call of its meaning. -/

namespace Sys2Proof.Machine

def exec (i : Instr) (s : State) : Host.Outcome State Fault Refusal :=
  match i with
  | .tlbipVale2is t t2 => Sys2Proof.Machine.execTlbipVale2is t t2 s
  | .tlbipVale2isnxs t t2 => Sys2Proof.Machine.execTlbipVale2isnxs t t2 s

end Sys2Proof.Machine
end

