-- ==== Sys2Proof/Machine/Step.lean ====
section
/-! DEFINITION. One step of the machine: the next move of the agenda, or with an empty agenda one instruction of the
executing PE (log entry 23). -/

namespace Sys2Proof.Machine

/-- The executing PE fetches, decodes and executes one instruction. -/
def runCurrent (s : State) : Host.Outcome State Fault Refusal :=
  andThen (fetch s) fun w =>
    match decodeWord w with
    | .ok i => exec i s
    | .reject r => .refused (.notDecoded r)

/-- One step of the machine. -/
def step (s : State) : Host.Outcome State Fault Refusal :=
  match s.agenda with
  | [] => runCurrent s
  | .execute p :: rest => runCurrent { s with agenda := rest, cur := p }
  | .agent m :: rest => agentStep m { s with agenda := rest }

/-- The state with a table row's word placed where the next step fetches it: at the executing PE's `pc`, with nothing
scheduled before it.  It stands for the loading of a program from outside (log entry 34). -/
def State.withFetchWord (s : State) (nbits w : Nat) : State :=
  match s.pes[s.cur]? with
  | none => s
  | some p =>
    { s with mem := writeBytes s.mem p.pc.toNat (bytesOfWord (BitVec.ofNat 32 (w % 2 ^ nbits))), agenda := [] }

end Sys2Proof.Machine
end

