-- ==== Sys2Proof/Machine/Assembly.lean ====
section
/-! DEFINITION. The assembler syntax (30_encoding R69 to R71): the `TLBIP` spelling, the generic `SYSP` spelling, and what each
stands for.  Names are lists of characters, compared without regard to case (R71). -/

namespace Sys2Proof.Machine

/-- An assembly line, read into its parts.  The registers are optional together (30_encoding R70). -/
inductive AsmLine where
  /-- `TLBIP <op>{, <Xt>, <Xt2>}` (30_encoding R69). -/
  | tlbip (op : List Char) (regs : Option (RegNum × RegNum))
  /-- `SYSP #<op1>, <Cn>, <Cm>, #<op2>{, <Xt>, <Xt2>}` (30_encoding R71). -/
  | sysp (op1 : BitVec 3) (cn cm : BitVec 4) (op2 : BitVec 3) (regs : Option (RegNum × RegNum))
  deriving DecidableEq, Repr

/-- Why a line stands for no instruction. -/
inductive AsmReject where
  /-- The form without registers, whose meaning is not shown (30_encoding R70). -/
  | registersNotShown
  /-- The operation is neither of the two (30_encoding R68). -/
  | notThisInstruction
  /-- A register number is not in 0 to 30 (10_state R16). -/
  | registerNotInFile
  deriving DecidableEq, Repr

/-- What an assembler answers. -/
inductive Assembled where
  | ok (i : Instr)
  | reject (r : AsmReject)
  deriving DecidableEq, Repr

/-- The operation names (30_encoding R69). -/
def asmName : Variant → List Char
  | .vale2is => ['V', 'A', 'L', 'E', '2', 'I', 'S']
  | .vale2isnxs => ['V', 'A', 'L', 'E', '2', 'I', 'S', 'N', 'X', 'S']

/-- The variant an operation name stands for, without regard to case (30_encoding R71). -/
def variantNamed (op : List Char) : Option Variant :=
  if op.map Char.toUpper = asmName .vale2is then some .vale2is
  else if op.map Char.toUpper = asmName .vale2isnxs then some .vale2isnxs
  else none

/-- The variant an assembly line names. -/
def AsmLine.variant? : AsmLine → Option Variant
  | .tlbip op _ => variantNamed op
  | .sysp op1 cn cm op2 _ => SysPoint.variant? ⟨0b01#2, op1, cn, cm, op2⟩

/-- The registers an assembly line writes. -/
def AsmLine.regs : AsmLine → Option (RegNum × RegNum)
  | .tlbip _ r => r
  | .sysp _ _ _ _ r => r

/-- The instruction an assembly line stands for (30_encoding R69 to R71). -/
def assemble (l : AsmLine) : Assembled :=
  match l.variant? with
  | none => .reject .notThisInstruction
  | some v =>
    match l.regs with
    | none => .reject .registersNotShown
    | some (t, t2) =>
      if (Instr.make v t t2).wellFormed then .ok (Instr.make v t t2) else .reject .registerNotInFile

/-- The `TLBIP` spelling of an instruction (30_encoding R69). -/
def disassemble (i : Instr) : AsmLine := .tlbip (asmName i.variant) (some (i.t, i.t2))

/-- The `SYSP` spelling of an instruction (30_encoding R71). -/
def disassembleSysp (i : Instr) : AsmLine :=
  .sysp i.variant.point.op1 i.variant.point.crn i.variant.point.crm i.variant.point.op2 (some (i.t, i.t2))

end Sys2Proof.Machine
end

