-- ==== Sys2Proof/Safety.lean ====
section
/-! DEFINITION. What counts as a safe run, and the vocabulary of the statements: which states can execute, which are final,
and the invariants. -/

namespace Sys2Proof.Machine

/-- `p` is the executing PE and can execute: no exception recorded, and a `pc` that has a meaning (10_state R17). -/
abbrev CanExecute (s : State) (p : Pe) : Prop :=
  s.pes[s.cur]? = some p ∧ p.exc = none ∧ p.pc.toNat % 4 = 0 ∧ p.pc.toNat ≠ 2 ^ 64 - 4

/-- The registers `t` and `t2` hold `lo` and `hi` (so both numbers are of the file, 10_state R16). -/
abbrev OperandIs (p : Pe) (t t2 : RegNum) (lo hi : Word64) : Prop :=
  p.x.toList[t.toNat]? = some lo ∧ p.x.toList[t2.toNat]? = some hi

/-- Every reserved operand bit is 0 (30_encoding R65, R66): bits [127:108], [43:0], and [47:44] without FEAT_TTL. -/
abbrev ReservedBitsZero (c : Config) (lo hi : Word64) : Prop :=
  hi.toNat / 2 ^ 44 = 0 ∧ lo.toNat % 2 ^ 44 = 0 ∧ (c.featTTL = false → lo.toNat / 2 ^ 44 % 16 = 0)

/-- The ASID field has a meaning (41 R94): 16-bit ASIDs, or the EL2 regime, or an upper byte of 0. -/
abbrev AsidHasMeaning (c : Config) (p : Pe) (lo : Word64) : Prop :=
  c.asidBits = .b8 → p.hcrEl2.e2h = 1#1 → lo.toNat / 2 ^ 56 = 0

/-- The PE may execute a variant (40 R75, R78): the features are there, and it is at EL2, or at EL3 with EL2 enabled. -/
abbrev MayIssue (v : Variant) (c : Config) (p : Pe) : Prop :=
  c.featD128 = true ∧ (v = .vale2isnxs → c.featXS = true) ∧
    (p.pstate.el = .el2 ∨ (p.pstate.el = .el3 ∧ el2Enabled c p = true))

/-- The state of an Issued outcome (40 R74, R77): `op` joins `pending`, the executing PE's `pc` advances. -/
abbrev issuedState (s : State) (p : Pe) (op : Op) : State :=
  { s with pes := s.pes.set s.cur { p with pc := p.pc + 4#64 }, pending := s.pending ++ [op] }

/-- The state of an exceptional outcome (60_exceptions R104, R106): the record on the executing PE, nothing else. -/
abbrev recordedState (s : State) (p : Pe) (r : ExcRecord) : State :=
  { s with pes := s.pes.set s.cur { p with exc := some r } }

/-- The variant an exception record names (60_exceptions R104, R108). -/
def ExcRecord.variant : ExcRecord → Variant
  | .undefined _ _ v => v
  | .trapped _ _ v _ _ _ _ => v

/-- The same record naming another variant: same kind, PE, `pc`, registers, target and code. -/
def ExcRecord.withVariant (v : Variant) : ExcRecord → ExcRecord
  | .undefined pe pc _ => .undefined pe pc v
  | .trapped pe pc _ t t2 target code => .trapped pe pc v t t2 target code

/-- From `s`, `TLBIP VALE2IS` gave `s'` and `TLBIP VALE2ISNXS` gave `s''`, and the two are the same but for the attribute of
the new operation, or for the variant that the exception record of the executing PE names (20_memory R45). -/
def SameButVariant (s s' s'' : State) : Prop :=
  (∃ op, op.args.attr = .allAttr ∧ s'.pending = s.pending ++ [op] ∧
    s'' = { s' with pending := s.pending ++ [{ op with args := { op.args with attr := .excludeXS } }] }) ∨
  ∃ p r, s.pes[s.cur]? = some p ∧ r.variant = .vale2is ∧ s' = recordedState s p r ∧
    s'' = recordedState s p (r.withVariant .vale2isnxs)

/-- A granule row is about this regime, Security state and page (log entry 17). -/
abbrev RowIsAbout (row : GranuleRow) (r : Regime) (ss : SecurityState) (va : PageNum) : Prop :=
  row.regime = r ∧ row.security = ss ∧ row.lo.toNat ≤ va.toNat ∧ va.toNat ≤ row.hi.toNat

/-- Two pages lie in the same 64KB block, the largest a granule makes (41 R92). -/
abbrev SameBlock (va va' : PageNum) : Prop := va'.toNat / 2 ^ 4 = va.toNat / 2 ^ 4

/-- The record that the executing PE `p` issues for the operand `hi:lo` (41 R85, R87, R97): the seven arguments, the issuer,
the domain, and on each PE of it the required set of the TLB as it is, all of it still to do. -/
def IssuedOp (s : State) (p : Pe) (attr : TlbiAttr) (lo hi : Word64) (op : Op) : Prop :=
  op.args = { security := securityStateAtEL2 s.cfg p, regime := if p.hcrEl2.e2h = 1#1 then .el20 else .el2,
              vmid := .none, shareability := .ish, level := .last, attr := attr, op128 := hi ++ lo } ∧
  op.issuer = s.cur ∧ op.domain.Nodup ∧
  (∀ q, q ∈ op.domain ↔ q < s.pes.length ∧ (q = s.cur ∨ (s.cur, q) ∈ s.cfg.ish)) ∧
  ∀ t ∈ op.targets, t.todo = t.req ∧
    t.req = required s.cfg (granuleUsed p.granules op.args.regime op.args.security (vaOf op.args.op128)) op.args
      (tlbOf s t.pe)

/-- The candidates of 41 R88, requirement by requirement, with the address compared as 41 R92 writes it. -/
def IsCandidate (c : Config) (g : Granule) (a : TlbipArgs) (e : Entry) : Prop :=
  e.stage1 = true ∧ (e.descBits = .d64 ∨ (e.descBits = .d128 ∧ a.op128.extractLsb' 46 2 = 0b00#2)) ∧
    e.regime = .tlbi a.regime ∧ e.security = a.security ∧
    (∀ va : PageNum, va.toNat / 2 ^ granuleBits g = (a.op128.extractLsb' 64 44).toNat / 2 ^ granuleBits g →
      covers e va = true) ∧
    e.finalLevel = true ∧
    (a.regime = .el2 ∨ e.isGlobal = true ∨ (c.asidBits = .b16 ∧ e.asid = a.op128.extractLsb' 48 16) ∨
      (c.asidBits = .b8 ∧ e.asid.extractLsb' 0 8 = a.op128.extractLsb' 48 8))

/-- The hint of 41 R95 agrees with an entry. -/
def HintAgrees (c : Config) (a : TlbipArgs) (e : Entry) : Prop :=
  ttlHint c (a.op128.extractLsb' 44 4) = none ∨
    ttlHint c (a.op128.extractLsb' 44 4) = some (e.granule, e.level)

/-- An incomplete access that an operation waits for (20_memory R43, R44). -/
def Blocks (op : Op) (a : MemAccess) : Prop :=
  a.complete = false ∧ (op.args.attr = .excludeXS → a.xs = 0#1) ∧
    ∃ t ∈ op.targets, a.pe = t.pe ∧ ∃ e ∈ a.uses, e ∈ t.req

/-- A state with no operation outstanding and no exception recorded (10_state R31, R35; 92 D3). -/
abbrev Final (s : State) : Prop := s.pending = [] ∧ ∀ p ∈ s.pes, p.exc = none

/-- What every required entry of an operation is (41 R88 to R95), whatever the granule in use. -/
abbrev EntryInScope (c : Config) (a : TlbipArgs) (e : Entry) : Prop :=
  e.stage1 = true ∧ e.finalLevel = true ∧ e.regime = .tlbi a.regime ∧ e.security = a.security ∧
    covers e (vaOf a.op128) = true ∧ descOK a e = true ∧ asidOK c a e = true ∧ agrees c a e = true

/-- A target of an operation: what is left to do is required, and what is required is in scope. -/
abbrev TargetSound (c : Config) (a : TlbipArgs) (t : Target) : Prop :=
  (∀ e ∈ t.todo, e ∈ t.req) ∧ ∀ e ∈ t.req, EntryInScope c a e

/-- An operation record among `n` PEs: its domain is a set of PEs that holds the issuer (41 R97), its targets are sound. -/
abbrev OpSound (c : Config) (n : Nat) (op : Op) : Prop :=
  op.issuer ∈ op.domain ∧ op.domain.Nodup ∧ (∀ q ∈ op.domain, q < n) ∧ ∀ t ∈ op.targets, TargetSound c op.args t

/-- The exception record of PE `i` says what the PE's state says (60_exceptions R104 to R106). -/
def ExcSound (c : Config) (i : PEId) (p : Pe) : Prop :=
  match p.exc with
  | none => True
  | some (.undefined q pc v) => q = i ∧ pc = p.pc ∧ accessCheck v c p = .undefined
  | some (.trapped q pc v t t2 target code) =>
    q = i ∧ pc = p.pc ∧ accessCheck v c p = .trapped ∧ t ≠ 31#5 ∧ t2 ≠ 31#5 ∧ target = .el2 ∧ code = 0x14

/-- PE `i`: an aligned `pc`, a TLB that is a set, 128-bit entries only with FEAT_D128 (20_memory R42 a), a sound record. -/
abbrev PeSound (c : Config) (i : PEId) (p : Pe) : Prop :=
  p.pc.toNat % 4 = 0 ∧ p.tlb.Nodup ∧ (∀ e ∈ p.tlb, e.descBits = .d128 → c.featD128 = true) ∧ ExcSound c i p

/-- The invariant of the machine. -/
def Inv (s : State) : Prop :=
  Memory.wf s.mem = true ∧ (∀ i p, s.pes[i]? = some p → PeSound s.cfg i p) ∧
    ∀ op ∈ s.pending, OpSound s.cfg s.pes.length op

/-- Whatever is still cached of a required set is still to be removed (20_memory R49, 41 R98). -/
def Tracked (s : State) : Prop :=
  ∀ op ∈ s.pending, ∀ t ∈ op.targets, ∀ e ∈ t.req, e ∈ tlbOf s t.pe → e ∈ t.todo

/-- The next move puts back no entry that a pending operation must remove. -/
def NoRefill (s : State) : Prop :=
  ∀ p e rest, s.agenda = .agent (.fill p e) :: rest →
    ∀ op ∈ s.pending, ∀ t ∈ op.targets, t.pe = p → e ∉ t.req

end Sys2Proof.Machine
end

