-- ==== Sys2Proof/Certificates/Slice0/Obligations.lean ====
section
/-! DEFINITION. The statements for the provers. -/

open Sys2Proof Sys2Proof.Machine

/-! ### Encoding -/

/-- 30_encoding R53, R54: the field values that select each variant, and no others do. -/
def Obligations.VariantsOccupyTheirPoints : Prop :=
  ∀ p : SysPoint,
    (p.variant? = some .vale2is ↔
      p.op0 = 0b01#2 ∧ p.op1 = 0b100#3 ∧ p.crn = 0b1000#4 ∧ p.crm = 0b0011#4 ∧ p.op2 = 0b101#3) ∧
    (p.variant? = some .vale2isnxs ↔
      p.op0 = 0b01#2 ∧ p.op1 = 0b100#3 ∧ p.crn = 0b1001#4 ∧ p.crm = 0b0011#4 ∧ p.op2 = 0b101#3)

/-- 30_encoding section 1: every instruction that a word can hold is decoded from its own bytes, whatever follows them.
The layout of the word is general knowledge in the spec (log entries 1, 2). -/
def Obligations.DecodeOfEncodeIsIdentity : Prop :=
  ∀ (i : Instr) (rest : List Byte), i.encodable = true →
    ∃ w, encode i = some w ∧ decode (bytesOfWord w ++ rest) = (.ok i, rest)

/-- 30_encoding section 1: the other direction.  A word that decodes is the word of the instruction it decodes to, and that
instruction is one a word can hold and names registers of the file (log entries 1, 2). -/
def Obligations.EncodeOfDecodeIsIdentity : Prop :=
  ∀ (w : Word32) (i : Instr), decodeWord w = .ok i →
    encode i = some w ∧ i.encodable = true ∧ i.wellFormed = true

/-- 30_encoding section 1 (the match and mask values): which words are instructions, and which (log entries 1, 2). -/
def Obligations.MatchAndMaskSelectTheWords : Prop :=
  ∀ (w : Word32) (t t2 : RegNum),
    (decodeWord w = .ok (.tlbipVale2is t t2) ↔
      w &&& 0xFFFFFFE0#32 = 0xD54C83A0#32 ∧ t.toNat = w.toNat % 32 ∧ t.toNat % 2 = 0 ∧ t.toNat ≤ 28 ∧
        t2.toNat = t.toNat + 1) ∧
    (decodeWord w = .ok (.tlbipVale2isnxs t t2) ↔
      w &&& 0xFFFFFFE0#32 = 0xD54C93A0#32 ∧ t.toNat = w.toNat % 32 ∧ t.toNat % 2 = 0 ∧ t.toNat ≤ 28 ∧
        t2.toNat = t.toNat + 1)

/-- 30_encoding sections 1 and 3: every other word is rejected by a name of its own: odd register field, 30, 31, and words
that the two rows do not select (log entry 2). -/
def Obligations.OtherWordsAreRejectedByName : Prop :=
  ∀ w : Word32,
    (w &&& 0xFFFFFFE0#32 ≠ 0xD54C83A0#32 ∧ w &&& 0xFFFFFFE0#32 ≠ 0xD54C93A0#32 ↔
      decodeWord w = .reject (.notThisInstruction w)) ∧
    (w &&& 0xFFFFFFE0#32 = 0xD54C83A0#32 ∨ w &&& 0xFFFFFFE0#32 = 0xD54C93A0#32 →
      (w.toNat % 32 = 31 → decodeWord w = .reject .rt31) ∧
      (w.toNat % 32 = 30 → decodeWord w = .reject .rt30) ∧
      (w.toNat % 2 = 1 → w.toNat % 32 ≠ 31 → decodeWord w = .reject (.oddRt (BitVec.ofNat 5 w.toNat))))

/-- 95_test_vectors 2.6: some of the words written out there (general knowledge, log entry 1). -/
def Obligations.VectorWordsDecode : Prop :=
  decodeTableWord 32 0xD54C83A0 = some (.tlbipVale2is 0#5 1#5) ∧
  decodeTableWord 32 0xD54C83A2 = some (.tlbipVale2is 2#5 3#5) ∧
  decodeTableWord 32 0xD54C93A4 = some (.tlbipVale2isnxs 4#5 5#5) ∧
  decodeTableWord 32 0xD54C83BE = none ∧ decodeTableWord 32 0xD54C83BF = none ∧
  decodeTableWord 32 0xD54C83A1 = none ∧ decodeTableWord 32 0xD54CA3A0 = none

/-- 30_encoding section 4: both spellings of every well-formed instruction stand for it. -/
def Obligations.BothSpellingsAssemble : Prop :=
  ∀ i : Instr, i.wellFormed = true →
    assemble (disassemble i) = .ok i ∧ assemble (disassembleSysp i) = .ok i

/-- 30_encoding section 4: a line without registers, or with a register that is not of the file, stands for no instruction
(log entry 38), and every line that stands for one names it in one of the two spellings. -/
def Obligations.AssembledLinesNameTheirInstruction : Prop :=
  (∀ l : AsmLine, l.regs = none → ∀ i, assemble l ≠ .ok i) ∧
  ∀ (l : AsmLine) (i : Instr), assemble l = .ok i →
    i.wellFormed = true ∧ l.regs = some (i.t, i.t2) ∧
      match l with
      | .tlbip op _ => op.map Char.toUpper = asmName i.variant
      | .sysp op1 cn cm op2 _ => op1 = 4#3 ∧ cm = 3#4 ∧ op2 = 5#3 ∧
          cn = (match i.variant with
            | .vale2is => 8#4
            | .vale2isnxs => 9#4)

/-! ### Steps -/

/-- Fetching (20_memory section 1, 10_state section 3) and running: the four bytes at the executing PE's `pc`, lowest first,
decode to `i`; then a step with nothing scheduled is `exec` of `i`, and a step whose next scheduled move is that PE's is
`exec` of `i` with the move taken off and the PE made the executing one (log entries 3, 23). -/
def Obligations.StepRunsTheDecodedInstruction : Prop :=
  ∀ (s : State) (p : Pe) (b0 b1 b2 b3 : Byte) (i : Instr),
    CanExecute s p →
    readByte s.mem p.pc.toNat = some b0 → readByte s.mem (p.pc.toNat + 1) = some b1 →
    readByte s.mem (p.pc.toNat + 2) = some b2 → readByte s.mem (p.pc.toNat + 3) = some b3 →
    decode [b0, b1, b2, b3] = (.ok i, []) →
    (s.agenda = [] → step s = exec i s) ∧
    ∀ (rest : List Move) (c : PEId), step { s with agenda := .execute s.cur :: rest, cur := c } =
      exec i { s with agenda := rest }

/-- A scheduled step of another agent is that agent's step with the move taken off the agenda (log entry 23). -/
def Obligations.StepPerformsTheScheduledMove : Prop :=
  ∀ (s : State) (m : AgentMove) (rest : List Move), s.agenda = .agent m :: rest →
    step s = agentStep m { s with agenda := rest }

/-- Where a step stops before any instruction runs (10_state section 3, 30_encoding section 3; log entries 4, 5, 14). -/
def Obligations.StepStopsBeforeExecution : Prop :=
  ∀ s : State, s.agenda = [] →
    (s.pes[s.cur]? = none → step s = .refused (.noSuchPe s.cur)) ∧
    (∀ p r, s.pes[s.cur]? = some p → p.exc = some r → step s = .fault (.exceptionRecorded r)) ∧
    (∀ p, s.pes[s.cur]? = some p → p.exc = none →
      (p.pc.toNat % 4 ≠ 0 → step s = .refused (.pcMisaligned p.pc)) ∧
      (p.pc.toNat = 2 ^ 64 - 4 → step s = .refused .pcAtTop)) ∧
    (∀ p w r, CanExecute s p → fetch s = .next w → decodeWord w = .reject r → step s = .refused (.notDecoded r)) ∧
    (∀ p k, CanExecute s p → k < 4 → (∀ j, j < k → (readByte s.mem (p.pc.toNat + j)).isSome = true) →
      readByte s.mem (p.pc.toNat + k) = none → step s = .fault (.fetchUnwritten (p.pc.toNat + k)))

/-- A word placed where the next instruction is fetched is the next instruction that runs, and the placing changes neither a
PE nor any byte outside the word (log entry 34). -/
def Obligations.PlacedWordRunsNext : Prop :=
  ∀ (s : State) (p : Pe) (i : Instr) (w : Word32), CanExecute s p → encode i = some w →
    step (s.withFetchWord 32 w.toNat) = exec i (s.withFetchWord 32 w.toNat) ∧
    (s.withFetchWord 32 w.toNat).pes = s.pes ∧ (s.withFetchWord 32 w.toNat).pending = s.pending ∧
    ∀ a, a < p.pc.toNat ∨ p.pc.toNat + 4 ≤ a → readByte (s.withFetchWord 32 w.toNat).mem a = readByte s.mem a

/-! ### The two instructions -/

/-- 40_tlbip_vale2is section 2: in the states of rows 6, 7, 9 and 10 of the outcome table `TLBIP VALE2IS` is Issued.  The reserved-bit and
ASID premises are those under which the spec gives the operand a meaning (log entries 19, 20). -/
def Obligations.Vale2isIssues : Prop :=
  ∀ (s : State) (p : Pe) (t t2 : RegNum) (lo hi : Word64),
    CanExecute s p → OperandIs p t t2 lo hi → MayIssue .vale2is s.cfg p → ReservedBitsZero s.cfg lo hi →
    AsidHasMeaning s.cfg p lo →
    ∃ op, exec (.tlbipVale2is t t2) s = .next (issuedState s p op) ∧ IssuedOp s p .allAttr lo hi op

/-- 40_tlbip_vale2is section 3: the same for `TLBIP VALE2ISNXS`, with FEAT_XS implemented and `TLBI_ExcludeXS` (log entries 19, 20). -/
def Obligations.Vale2isnxsIssues : Prop :=
  ∀ (s : State) (p : Pe) (t t2 : RegNum) (lo hi : Word64),
    CanExecute s p → OperandIs p t t2 lo hi → MayIssue .vale2isnxs s.cfg p → ReservedBitsZero s.cfg lo hi →
    AsidHasMeaning s.cfg p lo →
    ∃ op, exec (.tlbipVale2isnxs t t2) s = .next (issuedState s p op) ∧ IssuedOp s p .excludeXS lo hi op

/-- 60_exceptions R105: every cause of the Undefined outcome, complete. -/
def Obligations.CausesOfUndefined : Prop :=
  ∀ (v : Variant) (c : Config) (p : Pe),
    accessCheck v c p = .undefined ↔
      c.featD128 = false ∨ (v = .vale2isnxs ∧ c.featXS = false) ∨ p.pstate.el = .el0 ∨
        (p.pstate.el = .el1 ∧ ¬(el2Enabled c p = true ∧ p.hcrEl2.nv = 1#1)) ∨
        (p.pstate.el = .el3 ∧ el2Enabled c p = false)

/-- 60_exceptions R117: what each Exception level may do, given the features. -/
def Obligations.PrivilegePerLevel : Prop :=
  ∀ (v : Variant) (c : Config) (p : Pe), c.featD128 = true → (v = .vale2isnxs → c.featXS = true) →
    (p.pstate.el = .el0 → accessCheck v c p = .undefined) ∧
    (p.pstate.el = .el1 → accessCheck v c p =
      if el2Enabled c p = true ∧ p.hcrEl2.nv = 1#1 then .trapped else .undefined) ∧
    (p.pstate.el = .el2 → accessCheck v c p = .permit (if p.hcrEl2.e2h = 1#1 then .el20 else .el2)) ∧
    (p.pstate.el = .el3 → accessCheck v c p =
      if el2Enabled c p = true then .permit (if p.hcrEl2.e2h = 1#1 then .el20 else .el2) else .undefined)

/-- 10_state R21: `HCR_EL2.NV` is read only at EL1 with EL2 enabled; there, with the features implemented, 1 makes both instructions trap
and 0 makes them Undefined; neither instruction writes it. -/
def Obligations.NvIsReadAtEl1Only : Prop :=
  (∀ (v : Variant) (c : Config) (p : Pe) (nv : BitVec 1), ¬(p.pstate.el = .el1 ∧ el2Enabled c p = true) →
    accessCheck v c { p with hcrEl2 := { p.hcrEl2 with nv := nv } } = accessCheck v c p) ∧
  (∀ (v : Variant) (c : Config) (p : Pe), p.pstate.el = .el1 → el2Enabled c p = true → c.featD128 = true →
    (v = .vale2isnxs → c.featXS = true) →
    accessCheck v c p = if p.hcrEl2.nv = 1#1 then .trapped else .undefined) ∧
  ∀ (i : Instr) (s s' : State) (q : PEId) (p p' : Pe), exec i s = .next s' → s.pes[q]? = some p → s'.pes[q]? = some p' →
    p'.hcrEl2.nv = p.hcrEl2.nv

/-- 60_exceptions section 1 and 92 D3: both instructions, in exactly the states with a cause, record Undefined and change
nothing else.  The record and the stop of the PE are the spec's decision (log entry 14). -/
def Obligations.UndefinedRecordsAndChangesNothingElse : Prop :=
  ∀ (i : Instr) (s : State) (p : Pe), CanExecute s p → i.wellFormed = true →
    (s.cfg.featD128 = false ∨ (i.variant = .vale2isnxs ∧ s.cfg.featXS = false) ∨ p.pstate.el = .el0 ∨
        (p.pstate.el = .el1 ∧ ¬(el2Enabled s.cfg p = true ∧ p.hcrEl2.nv = 1#1)) ∨
        (p.pstate.el = .el3 ∧ el2Enabled s.cfg p = false) ↔
      exec i s = .next (recordedState s p (.undefined s.cur p.pc i.variant)))

/-- 60_exceptions section 1 and 92 D4: both instructions, in exactly the one state with a trap, record
`Trapped(EL2, 0x14)` and change nothing else (log entry 15). -/
def Obligations.TrapRecordsAndChangesNothingElse : Prop :=
  ∀ (i : Instr) (s : State) (p : Pe), CanExecute s p → i.wellFormed = true →
    (s.cfg.featD128 = true ∧ (i.variant = .vale2isnxs → s.cfg.featXS = true) ∧ p.pstate.el = .el1 ∧
        el2Enabled s.cfg p = true ∧ p.hcrEl2.nv = 1#1 ↔
      exec i s = .next (recordedState s p (.trapped s.cur p.pc i.variant i.t i.t2 .el2 0x14)))

/-- 10_state section 2, 30_encoding section 3, 41 section 2: where an instruction is Refused, by name (log entries 19, 20,
36, 37): a register number 31 whatever the state, and on the path that issues a reserved bit or an unstated ASID byte. -/
def Obligations.RefusedOperands : Prop :=
  ∀ (i : Instr) (s : State) (p : Pe), CanExecute s p →
    (i.t = 31#5 ∨ i.t2 = 31#5 → exec i s = .refused .registerNotInFile) ∧
    ∀ lo hi : Word64, OperandIs p i.t i.t2 lo hi → MayIssue i.variant s.cfg p →
      (¬ReservedBitsZero s.cfg lo hi → exec i s = .refused (.reservedOperandBit (hi ++ lo))) ∧
      (ReservedBitsZero s.cfg lo hi → ¬AsidHasMeaning s.cfg p lo →
        exec i s = .refused (.asidUpperByte (lo.extractLsb' 48 16)))

/-- 10_state section 3 and 92 D3, D4: a PE that holds a record, or stands at a `pc` without a meaning, executes neither
instruction (log entries 5, 14). -/
def Obligations.StoppedPeExecutesNothing : Prop :=
  ∀ (i : Instr) (s : State) (p : Pe), s.pes[s.cur]? = some p →
    (∀ r, p.exc = some r → exec i s = .fault (.exceptionRecorded r)) ∧
    (p.exc = none → p.pc.toNat % 4 ≠ 0 → exec i s = .refused (.pcMisaligned p.pc)) ∧
    (p.exc = none → p.pc.toNat = 2 ^ 64 - 4 → exec i s = .refused .pcAtTop)

/-- The frame of both instructions (10_state, 20_memory section 1, 40 R84): whatever the outcome, a next state differs from
the one before at most in the executing PE's `pc` (unchanged or plus 4), its exception record, and one record at the end of
`pending`; every byte of memory reads as before. -/
def Obligations.FrameOfBothInstructions : Prop :=
  ∀ (i : Instr) (s s' : State), exec i s = .next s' →
    s'.cfg = s.cfg ∧ s'.cur = s.cur ∧ s'.accesses = s.accesses ∧ s'.agenda = s.agenda ∧
    (∀ a, readByte s'.mem a = readByte s.mem a) ∧
    (s'.pending = s.pending ∨ ∃ op, s'.pending = s.pending ++ [op]) ∧
    s'.pes.length = s.pes.length ∧
    (∀ q, q ≠ s.cur → s'.pes[q]? = s.pes[q]?) ∧
    ∃ p p', s.pes[s.cur]? = some p ∧ s'.pes[s.cur]? = some p' ∧ p'.x = p.x ∧ p'.pstate = p.pstate ∧
      p'.hcrEl2 = p.hcrEl2 ∧ p'.scrEl3 = p.scrEl3 ∧ p'.el2On = p.el2On ∧ p'.granules = p.granules ∧ p'.tlb = p.tlb ∧
      ((p'.pc = p.pc + 4#64 ∧ p'.exc = none) ∨ (p'.pc = p.pc ∧ p'.exc.isSome = true))

/-- 20_memory R45: both variants perform the same invalidation.  With FEAT_XS, where one variant answers a next state so does
the other, whichever of the two comes first, and the two states are the same but for the attribute of the new record, or for
the variant that the exception record names (that a record is left is the spec's decision: log entries 14, 15). -/
def Obligations.VariantsDifferInTheAttributeOnly : Prop :=
  ∀ (s : State) (t t2 : RegNum), s.cfg.featXS = true →
    (∀ s', exec (.tlbipVale2is t t2) s = .next s' →
      ∃ s'', exec (.tlbipVale2isnxs t t2) s = .next s'' ∧ SameButVariant s s' s'') ∧
    ∀ s'', exec (.tlbipVale2isnxs t t2) s = .next s'' →
      ∃ s', exec (.tlbipVale2is t t2) s = .next s' ∧ SameButVariant s s' s''

/-- 40 R80: naming one register twice admits only the operand 0. -/
def Obligations.SameRegisterTwiceAdmitsOnlyZero : Prop :=
  ∀ (i : Instr) (s : State) (p : Pe) (w : Word64), CanExecute s p → i.t = i.t2 → OperandIs p i.t i.t2 w w →
    MayIssue i.variant s.cfg p → ((∃ s', exec i s = .next s') ↔ w = 0#64)

/-- 40 R79, 60_exceptions R113: where no operation is issued no register is read: the same outcome with any other register
contents. -/
def Obligations.ExceptionalOutcomesReadNoRegister : Prop :=
  ∀ (i : Instr) (s : State) (p : Pe) (x : Vector Word64 31) (r : ExcRecord), CanExecute s p →
    exec i s = .next (recordedState s p r) →
    exec i { s with pes := s.pes.set s.cur { p with x := x } } =
      .next (recordedState { s with pes := s.pes.set s.cur { p with x := x } } { p with x := x } r)

/-- 41 R97: the state of the other PEs plays no part, except that their TLBs are searched: with the other PEs changed in
everything but their TLBs, their granule tables included, the executing PE ends the same and the same records are pending.
That the issuer's granule table serves every PE of the domain is the model's choice (log entry 17). -/
def Obligations.OtherPesPlayNoPart : Prop :=
  ∀ (i : Instr) (s s' : State) (pes : List Pe), pes.length = s.pes.length → pes[s.cur]? = s.pes[s.cur]? →
    (∀ q : PEId, (pes[q]?).map Pe.tlb = (s.pes[q]?).map Pe.tlb) → exec i s = .next s' →
    ∃ s'', exec i { s with pes := pes } = .next s'' ∧ s''.pending = s'.pending ∧ s''.pes[s.cur]? = s'.pes[s.cur]? ∧
      ∀ q : PEId, q ≠ s.cur → s''.pes[q]? = pes[q]?

/-! ### Control bits and the operand -/

/-- 10_state section 5 (EL2Enabled): false without EL2, true at EL2 where EL2 is there, and not changed by either instruction.
With EL2 and at another Exception level it is the PE's parameter, which the spec leaves open (log entry 16). -/
def Obligations.El2EnabledMeetsItsConstraints : Prop :=
  (∀ (c : Config) (p : Pe), c.haveEL2 = false → el2Enabled c p = false) ∧
  (∀ (c : Config) (p : Pe), c.haveEL2 = true → p.pstate.el = .el2 → el2Enabled c p = true) ∧
  (∀ (c : Config) (p : Pe), c.haveEL2 = true → p.pstate.el ≠ .el2 → el2Enabled c p = p.el2On) ∧
  ∀ (i : Instr) (s s' : State) (p p' : Pe), exec i s = .next s' → s.pes[s.cur]? = some p → s'.pes[s.cur]? = some p' →
    el2Enabled s'.cfg p' = el2Enabled s.cfg p

/-- 10_state section 5 (SecurityStateAtEL2): it is the configuration's Security state for `SCR_EL3.NS` alone without FEAT_RME,
whatever NSE holds, and for `SCR_EL3.{NSE, NS}` with it; nothing else of the PE plays a part (log entry 18). -/
def Obligations.SecurityStateFromScr : Prop :=
  (∀ (c : Config) (p : Pe), c.featRME = false →
    (p.scrEl3.ns = 0#1 → securityStateAtEL2 c p = c.ssOf.ns0) ∧
    (p.scrEl3.ns = 1#1 → securityStateAtEL2 c p = c.ssOf.ns1)) ∧
  (∀ (c : Config) (p : Pe), c.featRME = true →
    (p.scrEl3.nse = 0#1 → p.scrEl3.ns = 0#1 → securityStateAtEL2 c p = c.ssOf.rme00) ∧
    (p.scrEl3.nse = 0#1 → p.scrEl3.ns = 1#1 → securityStateAtEL2 c p = c.ssOf.rme01) ∧
    (p.scrEl3.nse = 1#1 → p.scrEl3.ns = 0#1 → securityStateAtEL2 c p = c.ssOf.rme10) ∧
    (p.scrEl3.nse = 1#1 → p.scrEl3.ns = 1#1 → securityStateAtEL2 c p = c.ssOf.rme11)) ∧
  ∀ (c : Config) (p p' : Pe), p'.scrEl3 = p.scrEl3 → securityStateAtEL2 c p' = securityStateAtEL2 c p

/-- 30_encoding section 2: the fields of the operand `x[t2]:x[t]` come from the bits of the two registers that the table
names. -/
def Obligations.OperandFieldsComeFromTheRegisters : Prop :=
  ∀ lo hi : Word64,
    (vaOf (op128Of lo hi)).toNat = hi.toNat % 2 ^ 44 ∧ (asidOf (op128Of lo hi)).toNat = lo.toNat / 2 ^ 48 ∧
    (ttlOf (op128Of lo hi)).toNat = lo.toNat / 2 ^ 44 % 16 ∧
    ∀ c : Config, (res0OK c (op128Of lo hi) = true ↔ ReservedBitsZero c lo hi)

/-- 30_encoding section 2, the TTL table: no hint without FEAT_TTL; with it, the granule and level of each value. -/
def Obligations.TtlHintTable : Prop :=
  (∀ c : Config, c.featTTL = false → ∀ ttl, ttlHint c ttl = none) ∧
  ∀ c : Config, c.featTTL = true →
    (∀ ttl : BitVec 4, ttl.toNat < 4 → ttlHint c ttl = none) ∧
    (ttlHint c 0b0100#4 = if c.featLPA2 = true then some (.kb4, 0) else none) ∧
    ttlHint c 0b0101#4 = some (.kb4, 1) ∧ ttlHint c 0b0110#4 = some (.kb4, 2) ∧ ttlHint c 0b0111#4 = some (.kb4, 3) ∧
    ttlHint c 0b1000#4 = none ∧
    (ttlHint c 0b1001#4 = if c.featLPA2 = true then some (.kb16, 1) else none) ∧
    ttlHint c 0b1010#4 = some (.kb16, 2) ∧ ttlHint c 0b1011#4 = some (.kb16, 3) ∧
    ttlHint c 0b1100#4 = none ∧ ttlHint c 0b1101#4 = some (.kb64, 1) ∧
    ttlHint c 0b1110#4 = some (.kb64, 2) ∧ ttlHint c 0b1111#4 = some (.kb64, 3)

/-- 30_encoding R67: reserved TTL values are not errors: they name no level, the instruction is neither Undefined nor
trapped for them, and it is Issued. -/
def Obligations.ReservedTtlValuesAreNotErrors : Prop :=
  ∀ (i : Instr) (s : State) (p : Pe) (lo hi : Word64), CanExecute s p → OperandIs p i.t i.t2 lo hi →
    MayIssue i.variant s.cfg p → ReservedBitsZero s.cfg lo hi → AsidHasMeaning s.cfg p lo →
    (lo.extractLsb' 44 4 = 0b1000#4 ∨ lo.extractLsb' 44 4 = 0b1100#4 ∨
      (s.cfg.featLPA2 = false ∧ (lo.extractLsb' 44 4 = 0b0100#4 ∨ lo.extractLsb' 44 4 = 0b1001#4))) →
    ttlHint s.cfg (lo.extractLsb' 44 4) = none ∧
    ∃ op, exec i s = .next (issuedState s p op) ∧ ∀ e, agrees s.cfg op.args e = true

/-- 41 section 2 (the constraint on Granule): pages that differ only in the bits that the granule in use makes ineffective
use the same granule (log entry 17). -/
def Obligations.GranuleIgnoresItsOwnLowBits : Prop :=
  ∀ (t : GranuleTable) (r : Regime) (ss : SecurityState) (va va' : PageNum),
    va'.toNat / 2 ^ granuleBits (granuleUsed t r ss va) = va.toNat / 2 ^ granuleBits (granuleUsed t r ss va) →
    granuleUsed t r ss va' = granuleUsed t r ss va

/-! ### The required set -/

/-- 41 section 2: the required set of a TLB, requirement by requirement, in both readings of the TTL sentence (log entries
17, 20, 21, 22). -/
def Obligations.RequiredSetIsWhatTheSpecSays : Prop :=
  ∀ (c : Config) (g : Granule) (a : TlbipArgs) (tlb : List Entry) (e : Entry),
    (c.ttlReading = .allOrNothing →
      (e ∈ required c g a tlb ↔ e ∈ tlb ∧ IsCandidate c g a e ∧
        ∀ e' ∈ tlb, IsCandidate c g a e' → HintAgrees c a e')) ∧
    (c.ttlReading = .perEntry →
      (e ∈ required c g a tlb ↔ e ∈ tlb ∧ IsCandidate c g a e ∧ HintAgrees c a e))

/-- 70 R130: with a 16KB granule `va[1:0]` and with a 64KB granule `va[3:0]` are ignored: operands that differ there alone
require the same entries; with a 4KB granule every bit counts: the entry must cover the very page. -/
def Obligations.LowVaBitsAreIgnored : Prop :=
  (∀ (c : Config) (g : Granule) (a : TlbipArgs) (op128 : Word128) (tlb : List Entry),
    op128.extractLsb' 0 64 = a.op128.extractLsb' 0 64 →
    (vaOf op128).toNat / 2 ^ granuleBits g = (vaOf a.op128).toNat / 2 ^ granuleBits g →
    required c g { a with op128 := op128 } tlb = required c g a tlb) ∧
  ∀ (e : Entry) (va : PageNum), coversMasked .kb4 e va = covers e va

/-- 70 R131: with 16-bit ASIDs a non-zero upper byte of the field leaves no non-global entry of an 8-bit context required;
global entries are unaffected, and there is no other consequence: the instruction is Issued whatever the field holds. -/
def Obligations.UpperAsidByteMissesEightBitContexts : Prop :=
  ∀ (c : Config) (g : Granule) (a : TlbipArgs) (tlb : List Entry) (e : Entry),
    c.asidBits = .b16 → a.regime = .el20 → (asidOf a.op128).toNat / 2 ^ 8 ≠ 0 →
    (e.isGlobal = false → e.asid.toNat / 2 ^ 8 = 0 → e ∉ required c g a tlb) ∧
    (e.isGlobal = true → ∀ op128 : Word128, op128.extractLsb' 64 64 = a.op128.extractLsb' 64 64 →
      op128.extractLsb' 0 48 = a.op128.extractLsb' 0 48 →
      matchEntry c g { a with op128 := op128 } e = matchEntry c g a e) ∧
    ∀ (i : Instr) (s : State) (p : Pe) (lo hi : Word64), s.cfg = c → CanExecute s p → OperandIs p i.t i.t2 lo hi →
      MayIssue i.variant c p → ReservedBitsZero c lo hi → ∃ op, exec i s = .next (issuedState s p op)

/-- 70 R133: every entry that an issued operation must remove is of the regime that the current `HCR_EL2.E2H` selects. -/
def Obligations.RequiredEntriesAreOfTheSelectedRegime : Prop :=
  ∀ (i : Instr) (s s' : State) (p : Pe) (op : Op), exec i s = .next s' → s.pes[s.cur]? = some p →
    s'.pending = s.pending ++ [op] → ∀ t ∈ op.targets, ∀ e ∈ t.req,
      e.regime = .tlbi (if p.hcrEl2.e2h = 1#1 then .el20 else .el2) ∧ e ∈ tlbOf s t.pe

/-! ### The other agents -/

/-- 41 section 3 (Removal): a removal is enabled exactly for an entry still to do; it takes the entry out of that TLB and
out of that `todo` (or, shared, out of every `todo` of that PE), and changes nothing else (log entry 24). -/
def Obligations.RemovalTakesTheEntryOut : Prop :=
  ∀ (s : State) (k : Nat) (p : PEId) (e : Entry) (shared : Bool),
    ((∃ s', agentStep (.remove k p e shared) s = .next s') ↔
      ∃ op, s.pending[k]? = some op ∧ ∃ t ∈ op.targets, t.pe = p ∧ e ∈ t.todo) ∧
    ∀ s', agentStep (.remove k p e shared) s = .next s' →
      s'.cfg = s.cfg ∧ s'.mem = s.mem ∧ s'.cur = s.cur ∧ s'.accesses = s.accesses ∧ s'.agenda = s.agenda ∧
      (∀ q, q ≠ p → s'.pes[q]? = s.pes[q]?) ∧
      (∀ pe, s.pes[p]? = some pe → ∃ tlb, s'.pes[p]? = some { pe with tlb := tlb } ∧
        ∀ e', e' ∈ tlb ↔ e' ∈ pe.tlb ∧ e' ≠ e) ∧
      s'.pending.length = s.pending.length ∧
      ∀ (n : Nat) (op op' : Op), s.pending[n]? = some op → s'.pending[n]? = some op' →
        op'.args = op.args ∧ op'.issuer = op.issuer ∧
        op'.targets.map (fun t => (t.pe, t.req)) = op.targets.map (fun t => (t.pe, t.req)) ∧
        ∀ (m : Nat) (t t' : Target), op.targets[m]? = some t → op'.targets[m]? = some t' →
          ∀ e', e' ∈ t'.todo ↔ e' ∈ t.todo ∧ ((n = k ∨ shared = true) → t.pe = p → e' ≠ e)

/-- 20_memory section 3: an operation may complete exactly when every entry it must remove has been removed and no access
blocks it; it then leaves `pending` and nothing else changes. -/
def Obligations.CompletionExactlyWhenNothingIsLeft : Prop :=
  ∀ (s s' : State) (k : Nat),
    agentStep (.complete k) s = .next s' ↔
      ∃ op, s.pending[k]? = some op ∧ (∀ t ∈ op.targets, t.todo = []) ∧ (∀ a ∈ s.accesses, ¬Blocks op a) ∧
        s' = { s with pending := s.pending.eraseIdx k }

/-- 70 R128: accesses with XS attribute 1 do not hold up `TLBIP VALE2ISNXS`: where it may complete, it still may with any
more of them in progress; where `TLBIP VALE2IS` may complete, every access that uses a required entry is complete. -/
def Obligations.NxsDoesNotWaitForXsAccesses : Prop :=
  ∀ (s s' : State) (k : Nat) (op : Op), s.pending[k]? = some op → agentStep (.complete k) s = .next s' →
    (op.args.attr = .excludeXS → ∀ more : List MemAccess, (∀ a ∈ more, a.xs = 1#1) →
      agentStep (.complete k) { s with accesses := s.accesses ++ more } =
        .next { s' with accesses := s.accesses ++ more }) ∧
    (op.args.attr = .allAttr → ∀ a ∈ s.accesses, ∀ t ∈ op.targets, a.pe = t.pe → ∀ e ∈ a.uses, e ∈ t.req →
      a.complete = true)

/-- 41 section 3: an operation whose required sets are all empty may complete in the step after its issue, whatever accesses
are in flight. -/
def Obligations.EmptyRequirementCompletesAtOnce : Prop :=
  ∀ (i : Instr) (s s' : State) (op : Op), exec i s = .next s' → s'.pending = s.pending ++ [op] →
    (∀ t ∈ op.targets, t.req = []) →
    agentStep (.complete s.pending.length) s' = .next { s' with pending := s.pending }

/-- 10_state section 6: any cached entry may vanish, from that TLB and no other, and what operations still have to do stays. -/
def Obligations.AnyEntryMayVanish : Prop :=
  ∀ (s : State) (p : PEId) (pe : Pe) (e : Entry), s.pes[p]? = some pe → e ∈ pe.tlb →
    ∃ s' tlb, agentStep (.evict p e) s = .next s' ∧ s'.pes = s.pes.set p { pe with tlb := tlb } ∧
      (∀ e', e' ∈ tlb ↔ e' ∈ pe.tlb ∧ e' ≠ e) ∧ s'.pending = s.pending ∧ s'.accesses = s.accesses ∧ s'.mem = s.mem

/-- 10_state section 6: the fill agent may add any entry to the TLB of any PE, 128 bits wide only with FEAT_D128, and nothing
else changes; what it may not add, and a PE that does not exist, is refused as a move that is not enabled (log entries 25,
28). -/
def Obligations.FillAddsOneEntry : Prop :=
  (∀ (s : State) (p : PEId) (pe : Pe) (e : Entry), s.pes[p]? = some pe →
    (e.descBits = .d128 → s.cfg.featD128 = true) →
    ∃ tlb, agentStep (.fill p e) s = .next { s with pes := s.pes.set p { pe with tlb := tlb } } ∧
      ∀ e', e' ∈ tlb ↔ e' = e ∨ e' ∈ pe.tlb) ∧
  (∀ (s : State) (p : PEId) (e : Entry), e.descBits = .d128 → s.cfg.featD128 = false →
    agentStep (.fill p e) s = .refused (.moveNotEnabled (.fill p e))) ∧
  ∀ (s : State) (p : PEId) (e : Entry), s.pes[p]? = none →
    agentStep (.fill p e) s = .refused (.moveNotEnabled (.fill p e))

/-- 10_state section 6: accesses are started incomplete and completed one at a time; nothing else changes (log entry 26). -/
def Obligations.AccessesStartAndComplete : Prop :=
  (∀ (s : State) (p : PEId) (uses : List Entry) (xs : BitVec 1), p < s.pes.length →
    agentStep (.beginAccess p uses xs) s = .next { s with accesses := s.accesses ++ [⟨p, uses, xs, false⟩] }) ∧
  ∀ (s : State) (n : Nat) (a : MemAccess), s.accesses[n]? = some a → a.complete = false →
    agentStep (.endAccess n) s = .next { s with accesses := s.accesses.set n ⟨a.pe, a.uses, a.xs, true⟩ }

/-- 20_memory section 1 and 41 section 3: removals of different things come in any order: where one may follow the other,
they may come the other way round, and the state is the same (log entry 24). -/
def Obligations.RemovalsComeInAnyOrder : Prop :=
  ∀ (s s1 s2 : State) (k k' : Nat) (p p' : PEId) (e e' : Entry), (k, p, e) ≠ (k', p', e') →
    agentStep (.remove k p e false) s = .next s1 → agentStep (.remove k' p' e' false) s1 = .next s2 →
    ∃ s1', agentStep (.remove k' p' e' false) s = .next s1' ∧ agentStep (.remove k p e false) s1' = .next s2

/-! ### The whole machine -/

/-- The invariant holds right after reset (its values are the model's: log entries 6 to 14). -/
def Obligations.ResetMeetsTheInvariant : Prop := Inv State.reset ∧ Tracked State.reset

/-- Every step keeps the invariant: the canonical memory, aligned `pc`s, TLBs that are sets, sound records and sound
operations. -/
def Obligations.StepKeepsTheInvariant : Prop :=
  ∀ s s' : State, Inv s → step s = .next s' → Inv s'

/-- 20_memory section 3: every step keeps track of what is still cached of a required set, unless it fills such an entry. -/
def Obligations.StepKeepsTrackOfStaleEntries : Prop :=
  ∀ s s' : State, Tracked s → NoRefill s → step s = .next s' → Tracked s'

/-- 20_memory section 3 (the promise after completion): when an operation completes, no entry it had to remove is cached on
any PE of its domain, and the accesses it waits for are complete.  The premise says that nothing was filled back. -/
def Obligations.PromiseAfterCompletion : Prop :=
  ∀ (s s' : State) (k : Nat) (rest : List Move) (op : Op), Tracked s → s.agenda = .agent (.complete k) :: rest →
    s.pending[k]? = some op → step s = .next s' →
    (∀ t ∈ op.targets, ∀ e ∈ t.req, e ∉ tlbOf s' t.pe) ∧ (∀ a ∈ s'.accesses, ¬Blocks op a) ∧
      s'.pending = s.pending.eraseIdx k

/-- 70 section 4: every operation can be brought to completion: whatever is pending, if no access blocks an operation, some
schedule of removals and a completion runs without a stop and leaves `pending` without it and no other operation lost. -/
def Obligations.EveryOperationCanComplete : Prop :=
  ∀ (s : State) (k : Nat) (op : Op), s.pending[k]? = some op → (∀ a ∈ s.accesses, ¬Blocks op a) →
    ∃ (moves : List Move) (s' : State),
      Host.Core.run Sys2Proof.core moves.length { s with agenda := moves } = .next s' ∧
      s'.pending = s.pending.eraseIdx k ∧ s'.agenda = []

/-- 10_state sections 2 to 5, 40 R84: no step of the machine writes a general-purpose register, the Exception level, a
control bit, the configuration or the program text, on any PE.  Nor does a step change the PE's value of EL2Enabled or its
granule table, the model's forms of the two parameters (log entries 16, 17). -/
def Obligations.NoStepWritesRegistersOrControls : Prop :=
  ∀ s s' : State, step s = .next s' →
    s'.cfg = s.cfg ∧ s'.mem = s.mem ∧ s'.pes.length = s.pes.length ∧
    ∀ (q : PEId) (p p' : Pe), s.pes[q]? = some p → s'.pes[q]? = some p' →
      p'.x = p.x ∧ p'.pstate = p.pstate ∧ p'.hcrEl2 = p.hcrEl2 ∧ p'.scrEl3 = p.scrEl3 ∧ p'.el2On = p.el2On ∧
      p'.granules = p.granules

/-- 92 D3, D4: an exception record is never cleared and its PE's `pc` stays (log entries 14, 15). -/
def Obligations.ExceptionRecordIsNeverCleared : Prop :=
  ∀ (s s' : State) (q : PEId) (p : Pe) (r : ExcRecord), step s = .next s' → s.pes[q]? = some p → p.exc = some r →
    ∃ p', s'.pes[q]? = some p' ∧ p'.exc = some r ∧ p'.pc = p.pc

/-- 41 sections 1 and 3: a required set is fixed at issue and what is left of it only shrinks.  An executed instruction leaves
every pending operation as it is and puts at most one new one at the end, with everything still to do; a completion takes one
out; after any other agent's step the same operations are pending, with the same arguments, issuer, PEs and required sets, and
no more to do. -/
def Obligations.RequiredSetsAreFixedAtIssue : Prop :=
  ∀ s s' : State, step s = .next s' →
    ((∀ m rest, s.agenda ≠ .agent m :: rest) →
      s'.pending = s.pending ∨
        ∃ op, s'.pending = s.pending ++ [op] ∧ ∀ t ∈ op.targets, t.todo = t.req) ∧
    (∀ k rest, s.agenda = .agent (.complete k) :: rest → s'.pending = s.pending.eraseIdx k) ∧
    ∀ m rest, s.agenda = .agent m :: rest → (∀ k, m ≠ .complete k) →
      List.Forall₂ (fun op' op : Op => op'.args = op.args ∧ op'.issuer = op.issuer ∧
        List.Forall₂ (fun t' t : Target => t'.pe = t.pe ∧ t'.req = t.req ∧ ∀ e ∈ t'.todo, e ∈ t.todo)
          op'.targets op.targets) s'.pending s.pending

/-- 70 R134, 41 R98: an entry leaves a TLB only by a removal or by vanishing, and joins one only by the fill agent: an
instruction's own step changes no TLB (70 R127: executed is not complete). -/
def Obligations.TlbsChangeOnlyByAgents : Prop :=
  ∀ (s s' : State) (q : PEId) (e : Entry), step s = .next s' →
    (e ∈ tlbOf s q → e ∉ tlbOf s' q →
      ∃ rest, (∃ k b, s.agenda = .agent (.remove k q e b) :: rest) ∨ s.agenda = .agent (.evict q e) :: rest) ∧
    (e ∉ tlbOf s q → e ∈ tlbOf s' q → ∃ rest, s.agenda = .agent (.fill q e) :: rest)

/-- 00_scope section 4 and 41 section 2 (the parameter Granule, as the table of log entry 17): where one row is the first to
speak of the pages of the page's 64KB block, and speaks of all of them, the granule in use is that row's; where no row speaks
of any page of the block it is the table's other granule. -/
def Obligations.GranuleIsWhatTheTableSays : Prop :=
  (∀ (above below : List GranuleRow) (row : GranuleRow) (o : Granule) (r : Regime) (ss : SecurityState) (va : PageNum),
    (∀ row' ∈ above, ∀ va', SameBlock va va' → ¬RowIsAbout row' r ss va') →
    (∀ va', SameBlock va va' → RowIsAbout row r ss va') →
    granuleUsed ⟨above ++ row :: below, o⟩ r ss va = row.granule) ∧
  ∀ (t : GranuleTable) (r : Regime) (ss : SecurityState) (va : PageNum),
    (∀ row ∈ t.rows, ∀ va', SameBlock va va' → ¬RowIsAbout row r ss va') →
    granuleUsed t r ss va = t.otherwise
end

