-- ==== Sys2Proof/Laws/Invalidation.lean ====
section
/-! SUPPORT. What the match and the required set say, once (41 R88 to R96), and the completion condition. -/

namespace Sys2Proof.Machine

theorem granuleBits_le (g : Granule) : granuleBits g ≤ 4 := by cases g <;> decide

/-- A page is in the block of another page when the two agree above the granule's bits. -/
theorem mem_blockPages {g : Granule} {va va' : PageNum} :
    va' ∈ blockPages g va ↔ va'.toNat / 2 ^ granuleBits g = va.toNat / 2 ^ granuleBits g := by
  have hb := va.isLt
  have hb' := va'.isLt
  simp only [blockPages, List.mem_map, List.mem_range]
  constructor
  · rintro ⟨i, hi, rfl⟩
    cases g <;> simp only [granuleBits, Nat.reducePow, BitVec.toNat_ofNat] at hi ⊢ <;> omega
  · intro h
    refine ⟨va'.toNat % 2 ^ granuleBits g, Nat.mod_lt _ (by positivity), ?_⟩
    rw [← h]
    apply BitVec.eq_of_toNat_eq
    rw [BitVec.toNat_ofNat, Nat.div_add_mod']
    exact Nat.mod_eq_of_lt hb'

/-- What it takes for a granule row to be about a page. -/
theorem rowHolds_iff {r : Regime} {ss : SecurityState} {va : PageNum} {row : GranuleRow} :
    rowHolds r ss va row = true ↔
      row.regime = r ∧ row.security = ss ∧ row.lo.toNat ≤ va.toNat ∧ va.toNat ≤ row.hi.toNat := by
  simp [rowHolds, and_assoc]

/-- The base of a page's block, as a number (41 R92). -/
theorem blockBase_toNat (g : Granule) (va : PageNum) :
    (blockBase g va).toNat = va.toNat / 2 ^ granuleBits g * 2 ^ granuleBits g := by
  rw [blockBase, BitVec.toNat_ofNat]
  exact Nat.mod_eq_of_lt (lt_of_le_of_lt (Nat.div_mul_le_self _ _) va.isLt)

/-- Where the table names one granule throughout a page's 64KB block, that is the granule in use (41 R92, log entry 17). -/
theorem granuleUsed_of_uniform {t : GranuleTable} {r : Regime} {ss : SecurityState} {va : PageNum} {g : Granule}
    (h : ∀ va' : PageNum, va'.toNat / 2 ^ 4 = va.toNat / 2 ^ 4 → tableGranule t r ss va' = g) :
    granuleUsed t r ss va = g := by
  have hb : ∀ g' : Granule, tableGranule t r ss (blockBase g' va) = g := fun g' =>
    h _ (by rw [blockBase_toNat]; cases g' <;> simp only [granuleBits] <;> omega)
  rw [granuleUsed, hb, hb]
  cases g <;> simp

/-- `CoversMasked` as 41 R92 writes it. -/
theorem coversMasked_iff {g : Granule} {e : Entry} {va : PageNum} :
    coversMasked g e va = true ↔
      ∀ va' : PageNum, va'.toNat / 2 ^ granuleBits g = va.toNat / 2 ^ granuleBits g → covers e va' = true := by
  simp only [coversMasked, List.all_eq_true, mem_blockPages]

/-- An entry that covers the block covers the page itself. -/
theorem coversMasked_covers {g : Granule} {e : Entry} {va : PageNum} (h : coversMasked g e va = true) :
    covers e va = true := coversMasked_iff.mp h va rfl

/-- `Match`, requirement by requirement (41 R88). -/
theorem matchEntry_iff {c : Config} {g : Granule} {a : TlbipArgs} {e : Entry} :
    matchEntry c g a e = true ↔
      e.stage1 = true ∧ descOK a e = true ∧ e.regime = .tlbi a.regime ∧ e.security = a.security ∧
        coversMasked g e (vaOf a.op128) = true ∧ e.finalLevel = true ∧ asidOK c a e = true := by
  simp [matchEntry, regimeVA, and_assoc]

/-- A candidate is an entry of the TLB that matches (41 R96). -/
@[simp] theorem mem_candidates {c : Config} {g : Granule} {a : TlbipArgs} {tlb : List Entry} {e : Entry} :
    e ∈ candidates c g a tlb ↔ e ∈ tlb ∧ matchEntry c g a e = true := by simp [candidates]

/-- What a required entry is, in either reading of the TTL sentence. -/
theorem mem_required {c : Config} {g : Granule} {a : TlbipArgs} {tlb : List Entry} {e : Entry}
    (h : e ∈ required c g a tlb) : e ∈ tlb ∧ matchEntry c g a e = true ∧ agrees c a e = true := by
  unfold required at h
  split at h
  · split at h
    · next hall => exact ⟨(mem_candidates.mp h).1, (mem_candidates.mp h).2, List.all_eq_true.mp hall e h⟩
    · simp at h
  · have h := List.mem_filter.mp h
    exact ⟨(mem_candidates.mp h.1).1, (mem_candidates.mp h.1).2, h.2⟩

/-- The required set of a set is a set. -/
theorem required_nodup {c : Config} {g : Granule} {a : TlbipArgs} {tlb : List Entry} (h : tlb.Nodup) :
    (required c g a tlb).Nodup := by
  unfold required candidates
  split
  · split
    · exact h.filter _
    · exact List.nodup_nil
  · exact (h.filter _).filter _

/-- The required set is decided by the match and the hint alone. -/
theorem required_congr {c : Config} {g g' : Granule} {a a' : TlbipArgs} {tlb : List Entry}
    (hm : ∀ e ∈ tlb, matchEntry c g a e = matchEntry c g' a' e) (ha : ∀ e ∈ tlb, agrees c a e = agrees c a' e) :
    required c g a tlb = required c g' a' tlb := by
  have hc : candidates c g a tlb = candidates c g' a' tlb := List.filter_congr hm
  have ha' : ∀ e ∈ candidates c g' a' tlb, agrees c a e = agrees c a' e :=
    fun e he => ha e (mem_candidates.mp he).1
  unfold required
  rw [hc, List.filter_congr ha']
  have : (candidates c g' a' tlb).all (agrees c a) = (candidates c g' a' tlb).all (agrees c a') := by
    rw [Bool.eq_iff_iff, List.all_eq_true, List.all_eq_true]
    exact forall₂_congr fun e he => by rw [ha' e he]
  rw [this]

theorem usesRequired_iff {t : Target} {a : MemAccess} :
    usesRequired t a = true ↔ a.pe = t.pe ∧ ∃ e ∈ a.uses, e ∈ t.req := by simp [usesRequired]

/-- The completion condition as 20_memory R43 and R44 write it. -/
theorem canComplete_iff {accesses : List MemAccess} {op : Op} :
    canComplete accesses op = true ↔
      ∀ t ∈ op.targets, t.todo = [] ∧
        ∀ a ∈ accesses, usesRequired t a = true → waitsFor op.args.attr a = true → a.complete = true := by
  simp only [canComplete, List.all_eq_true, Bool.and_eq_true, List.isEmpty_iff]
  refine forall₂_congr fun t _ => and_congr Iff.rfl (forall₂_congr fun a _ => ?_)
  cases usesRequired t a <;> cases waitsFor op.args.attr a <;> simp

end Sys2Proof.Machine
end

