-- ==== Sys2Proof/Laws/State.lean ====
section
/-! SUPPORT. What each update of the state leaves and changes, one lemma per field, true by definition. -/

namespace Sys2Proof.Machine

section UpdPe
variable (s : State) (p : PEId) (f : Pe → Pe)
@[simp] theorem State.updPe_cfg : (s.updPe p f).cfg = s.cfg := rfl
@[simp] theorem State.updPe_mem : (s.updPe p f).mem = s.mem := rfl
@[simp] theorem State.updPe_pes : (s.updPe p f).pes = s.pes.modify p f := rfl
@[simp] theorem State.updPe_cur : (s.updPe p f).cur = s.cur := rfl
@[simp] theorem State.updPe_accesses : (s.updPe p f).accesses = s.accesses := rfl
@[simp] theorem State.updPe_pending : (s.updPe p f).pending = s.pending := rfl
@[simp] theorem State.updPe_agenda : (s.updPe p f).agenda = s.agenda := rfl
end UpdPe

section Issue
variable (s : State) (op : Op)
@[simp] theorem State.issue_cfg : (s.issue op).cfg = s.cfg := rfl
@[simp] theorem State.issue_mem : (s.issue op).mem = s.mem := rfl
@[simp] theorem State.issue_pes : (s.issue op).pes = s.pes := rfl
@[simp] theorem State.issue_cur : (s.issue op).cur = s.cur := rfl
@[simp] theorem State.issue_accesses : (s.issue op).accesses = s.accesses := rfl
@[simp] theorem State.issue_pending : (s.issue op).pending = s.pending ++ [op] := rfl
@[simp] theorem State.issue_agenda : (s.issue op).agenda = s.agenda := rfl
end Issue

section AdvancePc
variable (s : State)
@[simp] theorem State.advancePc_cfg : s.advancePc.cfg = s.cfg := rfl
@[simp] theorem State.advancePc_mem : s.advancePc.mem = s.mem := rfl
@[simp] theorem State.advancePc_pes :
    s.advancePc.pes = s.pes.modify s.cur fun p => { p with pc := p.pc + 4#64 } := rfl
@[simp] theorem State.advancePc_cur : s.advancePc.cur = s.cur := rfl
@[simp] theorem State.advancePc_accesses : s.advancePc.accesses = s.accesses := rfl
@[simp] theorem State.advancePc_pending : s.advancePc.pending = s.pending := rfl
@[simp] theorem State.advancePc_agenda : s.advancePc.agenda = s.agenda := rfl
end AdvancePc

section TakeException
variable (s : State) (r : ExcRecord)
@[simp] theorem State.takeException_cfg : (s.takeException r).cfg = s.cfg := rfl
@[simp] theorem State.takeException_mem : (s.takeException r).mem = s.mem := rfl
@[simp] theorem State.takeException_pes :
    (s.takeException r).pes = s.pes.modify s.cur fun p => { p with exc := some r } := rfl
@[simp] theorem State.takeException_cur : (s.takeException r).cur = s.cur := rfl
@[simp] theorem State.takeException_accesses : (s.takeException r).accesses = s.accesses := rfl
@[simp] theorem State.takeException_pending : (s.takeException r).pending = s.pending := rfl
@[simp] theorem State.takeException_agenda : (s.takeException r).agenda = s.agenda := rfl
end TakeException

section DropEntry
variable (s : State) (p : PEId) (e : Entry)
@[simp] theorem State.dropEntry_cfg : (s.dropEntry p e).cfg = s.cfg := rfl
@[simp] theorem State.dropEntry_mem : (s.dropEntry p e).mem = s.mem := rfl
@[simp] theorem State.dropEntry_pes :
    (s.dropEntry p e).pes = s.pes.modify p fun pe => { pe with tlb := pe.tlb.filter fun e' => e' != e } := rfl
@[simp] theorem State.dropEntry_cur : (s.dropEntry p e).cur = s.cur := rfl
@[simp] theorem State.dropEntry_accesses : (s.dropEntry p e).accesses = s.accesses := rfl
@[simp] theorem State.dropEntry_pending : (s.dropEntry p e).pending = s.pending := rfl
@[simp] theorem State.dropEntry_agenda : (s.dropEntry p e).agenda = s.agenda := rfl
end DropEntry

section AddEntry
variable (s : State) (p : PEId) (e : Entry)
@[simp] theorem State.addEntry_cfg : (s.addEntry p e).cfg = s.cfg := rfl
@[simp] theorem State.addEntry_mem : (s.addEntry p e).mem = s.mem := rfl
@[simp] theorem State.addEntry_pes :
    (s.addEntry p e).pes =
      s.pes.modify p fun pe => { pe with tlb := if pe.tlb.contains e then pe.tlb else e :: pe.tlb } := rfl
@[simp] theorem State.addEntry_cur : (s.addEntry p e).cur = s.cur := rfl
@[simp] theorem State.addEntry_accesses : (s.addEntry p e).accesses = s.accesses := rfl
@[simp] theorem State.addEntry_pending : (s.addEntry p e).pending = s.pending := rfl
@[simp] theorem State.addEntry_agenda : (s.addEntry p e).agenda = s.agenda := rfl
end AddEntry

section OpClear
variable (p : PEId) (e : Entry)
@[simp] theorem Target.clear_pe (t : Target) : (t.clear p e).pe = t.pe := by
  unfold Target.clear; split <;> rfl
@[simp] theorem Target.clear_req (t : Target) : (t.clear p e).req = t.req := by
  unfold Target.clear; split <;> rfl
@[simp] theorem Op.clear_args (op : Op) : (op.clear p e).args = op.args := rfl
@[simp] theorem Op.clear_issuer (op : Op) : (op.clear p e).issuer = op.issuer := rfl
@[simp] theorem Op.clear_targets (op : Op) : (op.clear p e).targets = op.targets.map (Target.clear p e) := rfl
@[simp] theorem Op.clear_domain (op : Op) : (op.clear p e).domain = op.domain := by
  simp [Op.domain, Function.comp_def]
end OpClear

/-- What is left of a `todo` after a removal. -/
theorem Target.mem_clear_todo {p : PEId} {e e' : Entry} {t : Target} :
    e' ∈ (t.clear p e).todo ↔ e' ∈ t.todo ∧ (t.pe = p → e' ≠ e) := by
  unfold Target.clear; split <;> simp_all

section NewOp
variable (s : State) (p : Pe) (a : TlbipArgs)
@[simp] theorem newOp_args : (newOp s p a).args = a := rfl
@[simp] theorem newOp_issuer : (newOp s p a).issuer = s.cur := rfl
@[simp] theorem newOp_domain : (newOp s p a).domain = isDomain s s.cur := by
  simp [newOp, Op.domain, targetAt, Function.comp_def]
end NewOp

end Sys2Proof.Machine
end

