-- ==== Sys2Proof/Laws/Ops.lean ====
section
/-! SUPPORT. What each shared operation can do, said once. -/

namespace Sys2Proof.Machine

/-- A composed operation answers a next state only through both parts. -/
theorem andThen_next {α β : Type} {o : Result α} {f : α → Result β} {b : β} :
    andThen o f = .next b ↔ ∃ a, o = .next a ∧ f a = .next b := by
  cases o <;> simp [andThen]

@[simp] theorem andThen_of_next {α β : Type} {a : α} {f : α → Result β} : andThen (.next a) f = f a := rfl

theorem extract_low_two (w : Word64) : w.extractLsb' 0 2 = 0#2 ↔ w.toNat % 4 = 0 := by
  rw [← BitVec.toNat_inj]; simp

theorem eq_topPc (w : Word64) : w = topPc ↔ w.toNat = 2 ^ 64 - 4 := by
  rw [← BitVec.toNat_inj]; simp [topPc]

/-- When the executing PE can execute (10_state R17, 92 D3, D4). -/
theorem executingPe_next {s : State} {p : Pe} : executingPe s = .next p ↔ CanExecute s p := by
  unfold executingPe CanExecute
  cases h : s.pes[s.cur]? with
  | none => simp
  | some q =>
    simp only [Option.some.injEq]
    split
    · next r he =>
      refine ⟨by simp, ?_⟩
      rintro ⟨rfl, h2, -⟩
      rw [he] at h2; cases h2
    · next he =>
      rw [ne_eq (BitVec.toNat p.pc), ← eq_topPc, ← extract_low_two]
      split
      · next h3 => exact ⟨by simp, fun hp => by obtain ⟨rfl, -, h3', -⟩ := hp; exact absurd h3' h3⟩
      · next h3 =>
        split
        · next h4 => exact ⟨by simp, fun hp => by obtain ⟨rfl, -, -, h4'⟩ := hp; exact absurd h4 h4'⟩
        · next h4 =>
          constructor
          · intro hp; cases hp; exact ⟨rfl, he, not_not.mp h3, h4⟩
          · rintro ⟨rfl, -⟩; rfl

theorem readX_eq {p : Pe} {t : RegNum} : readX p t = p.x.toList[t.toNat]? := rfl

/-- A register number that can be read is one of the file. -/
theorem inFile_of_readX {p : Pe} {t : RegNum} {w : Word64} (h : readX p t = some w) : RegNum.inFile t = true := by
  have hl : t.toNat < 31 := by
    have := (List.getElem?_eq_some_iff.mp h).1
    simpa using this
  simp only [RegNum.inFile, bne_iff_ne, ne_eq]
  rintro rfl
  simp at hl

/-- Every register of the file can be read. -/
theorem readX_of_inFile (p : Pe) {t : RegNum} (h : RegNum.inFile t = true) : ∃ w, readX p t = some w := by
  have hl : t.toNat < p.x.toList.length := by
    simp only [RegNum.inFile, bne_iff_ne, ne_eq] at h
    have h31 : t.toNat ≠ 31 := fun hh => h (BitVec.eq_of_toNat_eq (by simpa using hh))
    have := t.isLt
    simp; omega
  exact ⟨_, List.getElem?_eq_getElem hl⟩

/-- What reading the operand gives. -/
theorem readOperand_next {p : Pe} {t t2 : RegNum} {v : Word128} :
    readOperand p t t2 = .next v ↔ ∃ lo hi, readX p t = some lo ∧ readX p t2 = some hi ∧ v = op128Of lo hi := by
  unfold readOperand
  cases readX p t <;> cases readX p t2 <;> simp [eq_comm]

/-- When the access checks permit the call (40 R75, R78). -/
theorem accessCheck_permit {v : Variant} {c : Config} {p : Pe} {r : Regime} :
    accessCheck v c p = .permit r ↔ MayIssue v c p ∧ r = regimeSelected p := by
  unfold accessCheck MayIssue
  cases h1 : c.featD128 <;> cases h2 : c.featXS <;> cases v <;> cases h3 : p.pstate.el <;>
    cases h4 : el2Enabled c p <;> by_cases h5 : p.hcrEl2.nv = 1#1 <;>
    simp [h5, @eq_comm _ r]

/-- When the access checks trap (60_exceptions R106). -/
theorem accessCheck_trapped {v : Variant} {c : Config} {p : Pe} :
    accessCheck v c p = .trapped ↔
      c.featD128 = true ∧ (v = .vale2isnxs → c.featXS = true) ∧ p.pstate.el = .el1 ∧ el2Enabled c p = true ∧
        p.hcrEl2.nv = 1#1 := by
  unfold accessCheck
  cases h1 : c.featD128 <;> cases h2 : c.featXS <;> cases v <;> cases h3 : p.pstate.el <;>
    cases h4 : el2Enabled c p <;> by_cases h5 : p.hcrEl2.nv = 1#1 <;> simp [h5]

/-- The access checks read the control fields and nothing else of the PE (40 R79). -/
theorem accessCheck_congr {v : Variant} {c : Config} {p q : Pe} (h1 : p.pstate = q.pstate) (h2 : p.hcrEl2 = q.hcrEl2)
    (h3 : p.el2On = q.el2On) : accessCheck v c p = accessCheck v c q := by
  have he : el2Enabled c p = el2Enabled c q := by simp only [el2Enabled, h1, h3]
  have hr : regimeSelected p = regimeSelected q := by simp only [regimeSelected, h2]
  unfold accessCheck
  rw [he, hr, h1, h2]

/-- What the step after the access checks can do (40 R74, R77, R79). -/
theorem issueStep_next {v : Variant} {t t2 : RegNum} {s s' : State} {p : Pe} {r : Regime} :
    issueStep v t t2 s p r = .next s' ↔
      ∃ lo hi, readX p t = some lo ∧ readX p t2 = some hi ∧ res0OK s.cfg (op128Of lo hi) = true ∧
        asidUnstated s.cfg r (op128Of lo hi) = false ∧
        s' = (s.issue (newOp s p (argsOf v s.cfg p r (op128Of lo hi)))).advancePc := by
  unfold issueStep
  rw [andThen_next]
  constructor
  · rintro ⟨op, h, h'⟩
    obtain ⟨lo, hi, h1, h2, rfl⟩ := readOperand_next.mp h
    refine ⟨lo, hi, h1, h2, ?_⟩
    split at h'
    · cases h'
    · split at h'
      · cases h'
      · cases h'; simp_all
  · rintro ⟨lo, hi, h1, h2, h3, h4, rfl⟩
    exact ⟨_, readOperand_next.mpr ⟨lo, hi, h1, h2, rfl⟩, by simp [h3, h4]⟩

/-- Everything an execution that answers a next state can have done (60_exceptions R110). -/
theorem tlbip_next {v : Variant} {t t2 : RegNum} {s s' : State} (h : tlbip v t t2 s = .next s') :
    ∃ p, CanExecute s p ∧ RegNum.inFile t = true ∧ RegNum.inFile t2 = true ∧
      ((accessCheck v s.cfg p = .undefined ∧ s' = s.raiseUndefined p v) ∨
       (accessCheck v s.cfg p = .trapped ∧ s' = s.raiseTrap p v t t2) ∨
       (∃ r lo hi, accessCheck v s.cfg p = .permit r ∧ readX p t = some lo ∧ readX p t2 = some hi ∧
          res0OK s.cfg (op128Of lo hi) = true ∧ asidUnstated s.cfg r (op128Of lo hi) = false ∧
          s' = (s.issue (newOp s p (argsOf v s.cfg p r (op128Of lo hi)))).advancePc)) := by
  unfold tlbip at h
  obtain ⟨p, hp, h⟩ := andThen_next.mp h
  refine ⟨p, executingPe_next.mp hp, ?_⟩
  split at h
  · cases h
  · next hreg =>
    simp only [Bool.not_eq_false, Bool.and_eq_true] at hreg
    refine ⟨hreg.1, hreg.2, ?_⟩
    split at h
    · next hd => cases h; exact .inl ⟨hd, rfl⟩
    · next hd => cases h; exact .inr (.inl ⟨hd, rfl⟩)
    · next r hd =>
      obtain ⟨lo, hi, h⟩ := issueStep_next.mp h
      exact .inr (.inr ⟨r, lo, hi, hd, h⟩)

/-- Both instructions are the one operation on their variant. -/
theorem exec_eq_tlbip (i : Instr) (s : State) : exec i s = tlbip i.variant i.t i.t2 s := by cases i <;> rfl

/-- Changing a PE that is there is setting it. -/
theorem modify_eq_set {l : List Pe} {i : Nat} {f : Pe → Pe} {p : Pe} (h : l[i]? = some p) :
    l.modify i f = l.set i (f p) := by
  apply List.ext_getElem?
  intro n
  rw [List.getElem?_modify, List.getElem?_set]
  split
  · next hn => subst hn; rw [h]; simp [(List.getElem?_eq_some_iff.mp h).1]
  · simp

theorem raiseUndefined_eq {s : State} {p : Pe} {v : Variant} (h : s.pes[s.cur]? = some p) :
    s.raiseUndefined p v = recordedState s p (.undefined s.cur p.pc v) := by
  simp only [State.raiseUndefined, State.takeException, State.updPe, modify_eq_set h]

theorem raiseTrap_eq {s : State} {p : Pe} {v : Variant} {t t2 : RegNum} (h : s.pes[s.cur]? = some p) :
    s.raiseTrap p v t t2 = recordedState s p (.trapped s.cur p.pc v t t2 .el2 0x14) := by
  simp only [State.raiseTrap, State.takeException, State.updPe, modify_eq_set h]
  rfl

theorem issue_advancePc_eq {s : State} {p : Pe} {op : Op} (h : s.pes[s.cur]? = some p) :
    (s.issue op).advancePc = issuedState s p op := by
  simp only [issuedState, State.issue, State.advancePc, State.updPe, modify_eq_set h]

/-- The operand's bits as numbers (30_encoding R59). -/
theorem op128Of_toNat (lo hi : Word64) : (op128Of lo hi).toNat = hi.toNat * 2 ^ 64 + lo.toNat := by
  rw [op128Of, BitVec.toNat_append, Nat.shiftLeft_eq, Nat.mul_comm, Nat.two_pow_add_eq_or_of_lt lo.isLt]

/-- An execution by a PE that can execute, to be read case by case (40 R74, R77). -/
theorem tlbip_of_canExecute {v : Variant} {t t2 : RegNum} {s : State} {p : Pe} (h : CanExecute s p) :
    tlbip v t t2 s =
      if (RegNum.inFile t && RegNum.inFile t2) = false then .refused .registerNotInFile
      else
        match accessCheck v s.cfg p with
        | .undefined => .next (s.raiseUndefined p v)
        | .trapped => .next (s.raiseTrap p v t t2)
        | .permit r => issueStep v t t2 s p r := by
  rw [tlbip, executingPe_next.mpr h, andThen_of_next] <;> rfl

/-- The TLB of a PE that is there. -/
theorem tlbOf_eq {s : State} {p : PEId} {pe : Pe} (h : s.pes[p]? = some pe) : tlbOf s p = pe.tlb := by simp [tlbOf, h]

/-- A PE of a domain exists (10_state R32). -/
theorem isDomain_lt {s : State} {p q : PEId} (h : q ∈ isDomain s p) : q < s.pes.length := by
  simp only [isDomain, List.mem_filter, List.mem_range] at h; exact h.1

/-- A PE is in its own domain (10_state R32). -/
theorem self_mem_isDomain {s : State} {p : PEId} (h : p < s.pes.length) : p ∈ isDomain s p := by
  simp [isDomain, h]

theorem isDomain_nodup (s : State) (p : PEId) : (isDomain s p).Nodup := List.nodup_range.filter _

end Sys2Proof.Machine
end

