-- ==== Sys2Proof/Laws/Agents.lean ====
section
/-! SUPPORT. What each agent's step can do, and what one step of the machine can do, said once. -/

namespace Sys2Proof.Machine

/-- A removal (41 R98, R103). -/
theorem removeStep_next {s s' : State} {k : Nat} {p : PEId} {e : Entry} {shared : Bool} :
    removeStep s k p e shared = .next s' ↔
      ∃ op, s.pending[k]? = some op ∧ op.hasTodo p e = true ∧
        s' = { s.dropEntry p e with
          pending := if shared then s.pending.map (Op.clear p e) else s.pending.modify k (Op.clear p e) } := by
  unfold removeStep
  cases s.pending[k]? with
  | none => simp
  | some op => by_cases h : op.hasTodo p e = true <;> simp [h, @eq_comm _ s']

/-- A completion (20_memory R43, R44). -/
theorem completeStep_next {s s' : State} {k : Nat} :
    completeStep s k = .next s' ↔
      ∃ op, s.pending[k]? = some op ∧ canComplete s.accesses op = true ∧
        s' = { s with pending := s.pending.eraseIdx k } := by
  unfold completeStep
  cases s.pending[k]? with
  | none => simp
  | some op => by_cases h : canComplete s.accesses op = true <;> simp [h, @eq_comm _ s']

theorem evictStep_next {s s' : State} {p : PEId} {e : Entry} :
    evictStep s p e = .next s' ↔ e ∈ tlbOf s p ∧ s' = s.dropEntry p e := by
  unfold evictStep
  by_cases h : e ∈ tlbOf s p <;> simp [h, @eq_comm _ s']

theorem fillStep_next {s s' : State} {p : PEId} {e : Entry} :
    fillStep s p e = .next s' ↔
      p < s.pes.length ∧ (e.descBits = .d128 → s.cfg.featD128 = true) ∧ s' = s.addEntry p e := by
  unfold fillStep
  split
  · next h => exact ⟨fun hs => ⟨h.1, h.2, by cases hs; rfl⟩, fun hs => by rw [hs.2.2]⟩
  · next h => simp only [reduceCtorEq, false_iff]; rintro ⟨h1, h2, -⟩; exact h ⟨h1, h2⟩

theorem beginAccessStep_next {s s' : State} {p : PEId} {uses : List Entry} {xs : BitVec 1} :
    beginAccessStep s p uses xs = .next s' ↔
      p < s.pes.length ∧
        s' = { s with accesses := s.accesses ++ [{ pe := p, uses := uses, xs := xs, complete := false }] } := by
  unfold beginAccessStep
  by_cases h : p < s.pes.length <;> simp [h, @eq_comm _ s']

theorem endAccessStep_next {s s' : State} {n : Nat} :
    endAccessStep s n = .next s' ↔
      ∃ a, s.accesses[n]? = some a ∧ a.complete = false ∧
        s' = { s with accesses := s.accesses.modify n fun a => { a with complete := true } } := by
  unfold endAccessStep
  cases s.accesses[n]? with
  | none => simp
  | some a => cases h : a.complete <;> simp [h, @eq_comm _ s']

/-- Whether an entry is left to remove on a PE. -/
theorem Op.hasTodo_iff {op : Op} {p : PEId} {e : Entry} :
    op.hasTodo p e = true ↔ ∃ t ∈ op.targets, t.pe = p ∧ e ∈ t.todo := by simp [Op.hasTodo]

/-- A TLB after an entry has gone. -/
theorem tlbOf_dropEntry {s : State} {p q : PEId} {e : Entry} :
    tlbOf (s.dropEntry p e) q = if q = p then (tlbOf s q).filter (fun e' => e' != e) else tlbOf s q := by
  simp only [tlbOf, State.dropEntry_pes, List.getElem?_modify]
  cases h : s.pes[q]? <;> by_cases hq : p = q <;> simp [hq, @eq_comm _ q]

/-- A TLB after an entry has been added. -/
theorem mem_tlbOf_addEntry {s : State} {p q : PEId} {e e' : Entry} :
    e' ∈ tlbOf (s.addEntry p e) q ↔ e' ∈ tlbOf s q ∨ (q = p ∧ e' = e ∧ q < s.pes.length) := by
  simp only [tlbOf, State.addEntry_pes, List.getElem?_modify]
  cases h : s.pes[q]? with
  | none =>
    have := List.getElem?_eq_none_iff.mp h
    simp only [Option.map_eq_map, Option.map_none, List.not_mem_nil, false_or, false_iff]
    exact fun ho => Nat.not_lt.mpr this ho.2.2
  | some a =>
    have hl := (List.getElem?_eq_some_iff.mp h).1
    by_cases hq : p = q
    · subst hq
      by_cases hx : e ∈ a.tlb
      · simp only [Option.map_eq_map, Option.map_some, if_true, List.contains_iff_mem, hx, hl, and_true, true_and]
        exact ⟨.inl, fun ho => ho.elim id fun he => he ▸ hx⟩
      · simp [hx, hl, or_comm]
    · simp [hq, Ne.symm hq]

/-- What an agent's step can do to the PEs, and what it leaves (41 R98, R102, 10_state R29). -/
theorem agentStep_pes {m : AgentMove} {s s' : State} (h : agentStep m s = .next s') :
    s'.cfg = s.cfg ∧ s'.mem = s.mem ∧ s'.cur = s.cur ∧ s'.agenda = s.agenda ∧
      (s'.pes = s.pes ∨
        (∃ p e, s'.pes = (s.dropEntry p e).pes ∧ ((∃ k b, m = .remove k p e b) ∨ m = .evict p e)) ∨
        ∃ p e, m = .fill p e ∧ p < s.pes.length ∧ (e.descBits = .d128 → s.cfg.featD128 = true) ∧
          s'.pes = (s.addEntry p e).pes) := by
  cases m with
  | remove k p e b =>
    obtain ⟨op, -, -, rfl⟩ := removeStep_next.mp h
    exact ⟨rfl, rfl, rfl, rfl, .inr (.inl ⟨p, e, rfl, .inl ⟨k, b, rfl⟩⟩)⟩
  | complete k =>
    obtain ⟨op, -, -, rfl⟩ := completeStep_next.mp h
    exact ⟨rfl, rfl, rfl, rfl, .inl rfl⟩
  | evict p e =>
    obtain ⟨-, rfl⟩ := evictStep_next.mp h
    exact ⟨rfl, rfl, rfl, rfl, .inr (.inl ⟨p, e, rfl, .inr rfl⟩)⟩
  | fill p e =>
    obtain ⟨h1, h2, rfl⟩ := fillStep_next.mp h
    exact ⟨rfl, rfl, rfl, rfl, .inr (.inr ⟨p, e, rfl, h1, h2, rfl⟩)⟩
  | beginAccess p u x =>
    obtain ⟨-, rfl⟩ := beginAccessStep_next.mp h
    exact ⟨rfl, rfl, rfl, rfl, .inl rfl⟩
  | endAccess n =>
    obtain ⟨a, -, -, rfl⟩ := endAccessStep_next.mp h
    exact ⟨rfl, rfl, rfl, rfl, .inl rfl⟩

/-- Where a pending operation comes from across an agent's step: it was pending, perhaps with an entry more to do. -/
theorem agentStep_pending {m : AgentMove} {s s' : State} (h : agentStep m s = .next s') :
    ∀ op' ∈ s'.pending, ∃ op ∈ s.pending, op' = op ∨ ∃ k p e b, m = .remove k p e b ∧ op' = op.clear p e := by
  cases m with
  | remove k p e b =>
    obtain ⟨op, -, -, rfl⟩ := removeStep_next.mp h
    intro op' ho
    cases b with
    | true =>
      obtain ⟨o, ho', rfl⟩ := List.mem_map.mp ho
      exact ⟨o, ho', .inr ⟨k, p, e, true, rfl, rfl⟩⟩
    | false =>
      obtain ⟨n, hn⟩ := List.getElem?_of_mem ho
      simp only [Bool.false_eq_true, if_false, List.getElem?_modify] at hn
      cases hx : s.pending[n]? with
      | none => simp [hx] at hn
      | some o =>
        refine ⟨o, List.mem_of_getElem? hx, ?_⟩
        by_cases hk : k = n <;> simp [hx, hk] at hn
        · exact .inr ⟨k, p, e, false, rfl, hn.symm⟩
        · exact .inl hn.symm
  | complete k =>
    obtain ⟨op, -, -, rfl⟩ := completeStep_next.mp h
    exact fun op' ho => ⟨op', List.mem_of_mem_eraseIdx ho, .inl rfl⟩
  | evict p e =>
    obtain ⟨-, rfl⟩ := evictStep_next.mp h
    exact fun op' ho => ⟨op', ho, .inl rfl⟩
  | fill p e =>
    obtain ⟨-, -, rfl⟩ := fillStep_next.mp h
    exact fun op' ho => ⟨op', ho, .inl rfl⟩
  | beginAccess p u x =>
    obtain ⟨-, rfl⟩ := beginAccessStep_next.mp h
    exact fun op' ho => ⟨op', ho, .inl rfl⟩
  | endAccess n =>
    obtain ⟨a, -, -, rfl⟩ := endAccessStep_next.mp h
    exact fun op' ho => ⟨op', ho, .inl rfl⟩

/-- A list against itself with one element changed. -/
theorem forall₂_modify {α : Type} {R : α → α → Prop} {f : α → α} (hr : ∀ a, R a a) (hf : ∀ a, R (f a) a) (k : Nat)
    (l : List α) : List.Forall₂ R (l.modify k f) l := by
  rw [List.forall₂_iff_get]
  refine ⟨by simp, fun n h1 h2 => ?_⟩
  simp only [List.get_eq_getElem, List.getElem_modify]
  split
  · exact hf _
  · exact hr _

/-- Place by place, what an agent's step other than a completion leaves pending. -/
theorem agentStep_pending_forall₂ {m : AgentMove} {s s' : State} (h : agentStep m s = .next s')
    (hm : ∀ k, m ≠ .complete k) :
    List.Forall₂ (fun op' op : Op => op' = op ∨ ∃ p e, op' = op.clear p e) s'.pending s.pending := by
  cases m with
  | remove k p e b =>
    obtain ⟨op, -, -, rfl⟩ := removeStep_next.mp h
    cases b with
    | true => simpa [List.forall₂_map_left_iff, List.forall₂_same] using fun _ _ => .inr ⟨p, e, rfl⟩
    | false => exact forall₂_modify (fun _ => .inl rfl) (fun _ => .inr ⟨p, e, rfl⟩) k _
  | complete k => exact absurd rfl (hm k)
  | evict p e =>
    obtain ⟨-, rfl⟩ := evictStep_next.mp h
    exact List.forall₂_same.mpr fun _ _ => .inl rfl
  | fill p e =>
    obtain ⟨-, -, rfl⟩ := fillStep_next.mp h
    exact List.forall₂_same.mpr fun _ _ => .inl rfl
  | beginAccess p u x =>
    obtain ⟨-, rfl⟩ := beginAccessStep_next.mp h
    exact List.forall₂_same.mpr fun _ _ => .inl rfl
  | endAccess n =>
    obtain ⟨a, -, -, rfl⟩ := endAccessStep_next.mp h
    exact List.forall₂_same.mpr fun _ _ => .inl rfl

/-- A run of the executing PE is a fetch, a decoding and an execution. -/
theorem runCurrent_next {s s' : State} (h : runCurrent s = .next s') :
    ∃ w i, fetch s = .next w ∧ decodeWord w = .ok i ∧ exec i s = .next s' := by
  unfold runCurrent at h
  obtain ⟨w, hw, h⟩ := andThen_next.mp h
  split at h
  · next i hi => exact ⟨w, i, hw, hi, h⟩
  · cases h

/-- The state in which a PE executes when it is its turn. -/
def State.turn (s : State) (p : PEId) (rest : List Move) : State := { s with agenda := rest, cur := p }

/-- The state in which an agent makes its step. -/
def State.after (s : State) (rest : List Move) : State := { s with agenda := rest }

/-- Everything a step that answers a next state can have done. -/
theorem step_next {s s' : State} (h : step s = .next s') :
    (∃ p rest i, exec i (s.turn p rest) = .next s' ∧ ∀ m r, s.agenda ≠ .agent m :: r) ∨
      ∃ m rest, s.agenda = .agent m :: rest ∧ agentStep m (s.after rest) = .next s' := by
  unfold step at h
  split at h
  · next ha =>
    obtain ⟨w, i, -, -, h⟩ := runCurrent_next h
    refine .inl ⟨s.cur, s.agenda, i, ?_, by simp [ha]⟩
    simpa [State.turn] using h
  · next p rest ha =>
    obtain ⟨w, i, -, -, h⟩ := runCurrent_next h
    exact .inl ⟨p, rest, i, h, by simp [ha]⟩
  · next m rest ha => exact .inr ⟨m, rest, ha, h⟩

end Sys2Proof.Machine
end

