-- ==== Sys2Proof/Laws/Decode.lean ====
section
/-! SUPPORT. The word and its bytes, and the fields of a word, said once. -/

namespace Sys2Proof

/-- The little-endian word of a word's own bytes. -/
@[simp] theorem wordOfBytes_bytesOfWord (w : Word32) :
    wordOfBytes (w.extractLsb' 0 8) (w.extractLsb' 8 8) (w.extractLsb' 16 8) (w.extractLsb' 24 8) = w := by
  apply BitVec.eq_of_getLsbD_eq
  intro i hi
  simp only [wordOfBytes, BitVec.getLsbD_append, BitVec.getLsbD_extractLsb']
  interval_cases i <;> simp

/-- What a point that selects a variant is. -/
theorem SysPoint.variant?_eq_some {p : SysPoint} {v : Variant} (h : p.variant? = some v) : p = v.point := by
  unfold SysPoint.variant? at h
  split at h
  · cases h; assumption
  · split at h
    · cases h; assumption
    · cases h

/-- A word with the fixed bits of 30_encoding R56 and a variant's point is that variant's word. -/
theorem eq_encodeWord {w : Word32} {v : Variant} (h1 : w.extractLsb' 22 10 = syspPrefix) (h2 : w.getLsbD 21 = false)
    (h3 : pointOfWord w = v.point) : w = encodeWord v (rtOfWord w) := by
  have hs : w = w.extractLsb' 22 10 ++ BitVec.ofBool (w.getLsbD 21) ++ (pointOfWord w).op0 ++ (pointOfWord w).op1 ++
      (pointOfWord w).crn ++ (pointOfWord w).crm ++ (pointOfWord w).op2 ++ rtOfWord w := by
    apply BitVec.eq_of_getLsbD_eq
    intro i hi
    simp only [pointOfWord, rtOfWord, BitVec.getLsbD_append, BitVec.getLsbD_extractLsb', BitVec.getLsbD_ofBool]
    interval_cases i <;> simp
  rw [h1, h2, h3] at hs
  exact hs

/-- Where a decoded instruction comes from: the word is a variant's, and its register field makes a pair. -/
theorem decodeWord_ok {w : Word32} {i : Instr} (h : decodeWord w = .ok i) :
    ∃ v, w = encodeWord v (rtOfWord w) ∧ decodePair v (rtOfWord w) = .ok i := by
  unfold decodeWord at h
  split at h
  · next hc =>
    split at h
    · next v hv => exact ⟨v, eq_encodeWord hc.1 hc.2 (SysPoint.variant?_eq_some hv), h⟩
    · cases h
  · cases h

end Sys2Proof
end

