-- ==== Sys2Proof/Laws/Memory.lean ====
section
/-! SUPPORT. The laws of the program text: every operation keeps the canonical form, and a read gives what was written. -/

namespace Sys2Proof.Machine

theorem wfFrom_cons {lo : Nat} {c : Host.Cell} {m : Memory} :
    wfFrom lo (c :: m) = true ↔ lo ≤ c.1 ∧ c.1 < 2 ^ 64 ∧ wfFrom (c.1 + 1) m = true := by
  rw [wfFrom, Bool.and_eq_true, Bool.and_eq_true, decide_eq_true_eq, decide_eq_true_eq, and_assoc]

/-- Inserting a byte keeps the canonical form from any bound at or below it. -/
theorem insertByte_wfFrom {a : Nat} {b : Byte} (ha : a < 2 ^ 64) {m : Memory} :
    ∀ {lo : Nat}, wfFrom lo m = true → lo ≤ a → wfFrom lo (insertByte a b m) = true := by
  induction m with
  | nil => intro lo _ hl; exact wfFrom_cons.mpr ⟨hl, ha, rfl⟩
  | cons c m ih =>
    intro lo h hl
    obtain ⟨h1, h2, h3⟩ := wfFrom_cons.mp h
    rcases lt_trichotomy a c.1 with hc | hc | hc
    · rw [insertByte, if_pos hc]
      exact wfFrom_cons.mpr ⟨hl, ha, wfFrom_cons.mpr ⟨hc, h2, h3⟩⟩
    · rw [insertByte, if_neg (by omega), if_pos hc]
      exact wfFrom_cons.mpr ⟨hl, ha, hc ▸ h3⟩
    · rw [insertByte, if_neg (by omega), if_neg (by omega)]
      exact wfFrom_cons.mpr ⟨h1, h2, ih h3 (by omega)⟩

/-- Writing a byte keeps the canonical form. -/
theorem writeByte_wf {m : Memory} (a : Nat) (b : Byte) (h : Memory.wf m = true) : Memory.wf (writeByte m a b) = true := by
  unfold writeByte
  split
  · exact insertByte_wfFrom ‹_› h (Nat.zero_le a)
  · exact h

/-- Writing bytes keeps the canonical form. -/
theorem writeBytes_wf {bs : List Byte} : ∀ {m : Memory} (a : Nat), Memory.wf m = true →
    Memory.wf (writeBytes m a bs) = true := by
  induction bs with
  | nil => intro m a h; exact h
  | cons b bs ih => intro m a h; exact ih _ (writeByte_wf a b h)

/-- A read of the byte just inserted, in any memory. -/
theorem readByte_insertByte_same (a : Nat) (b : Byte) (m : Memory) : readByte (insertByte a b m) a = some b := by
  induction m with
  | nil => simp [insertByte, readByte]
  | cons c m ih =>
    unfold insertByte
    split
    · simp [readByte]
    · split
      · simp [readByte]
      · rw [readByte, if_neg (by omega)]; exact ih

/-- A read of any other byte. -/
theorem readByte_insertByte_other {a a' : Nat} (h : a' ≠ a) (b : Byte) (m : Memory) :
    readByte (insertByte a b m) a' = readByte m a' := by
  induction m with
  | nil => simp [insertByte, readByte, Ne.symm h]
  | cons c m ih =>
    unfold insertByte
    split
    · rw [readByte, if_neg (fun hc => h hc.symm)]
    · split
      · rw [readByte, if_neg (fun hc => h hc.symm), readByte, if_neg (by omega)]
      · rw [readByte, readByte, ih]

/-- A read after a write: the byte written at its address, and every other byte as before. -/
theorem readByte_writeByte {a a' : Nat} (ha : a < 2 ^ 64) (b : Byte) (m : Memory) :
    readByte (writeByte m a b) a' = if a' = a then some b else readByte m a' := by
  unfold writeByte
  rw [if_pos ha]
  split
  · next h => rw [h, readByte_insertByte_same]
  · next h => exact readByte_insertByte_other h b m

/-- Placing an instruction keeps the canonical form. -/
theorem withFetchWord_wf {s : State} (nbits w : Nat) (h : Memory.wf s.mem = true) :
    Memory.wf (s.withFetchWord nbits w).mem = true := by
  unfold State.withFetchWord
  split
  · exact h
  · exact writeBytes_wf _ h

/-- The memory after reset has the canonical form. -/
theorem reset_mem_wf : Memory.wf State.reset.mem = true := rfl

end Sys2Proof.Machine
end

