-- ==== Sys2Proof/Laws/PerInstr.lean ====
section
/-! SUPPORT. What is stated for every instruction, one lemma per constructor of Instr. -/

namespace Sys2Proof.Laws.EncodedWord

/-- The word of an instruction agrees with its opcode-table row outside the register field (30_encoding R58), and holds the
number of `<Xt>` in that field (30_encoding R57). -/
def Statement (i : Instr) : Prop :=
  ∀ w, encode i = some w →
    w &&& 0xFFFFFFE0#32 = (match i.variant with
      | .vale2is => 0xD54C83A0#32
      | .vale2isnxs => 0xD54C93A0#32) ∧ w.extractLsb' 0 5 = i.t

/-- Every register field, under either variant. -/
theorem encodeWord_fields : ∀ (v : Variant) (rt : RegNum),
    encodeWord v rt &&& 0xFFFFFFE0#32 = (match v with
      | .vale2is => 0xD54C83A0#32
      | .vale2isnxs => 0xD54C93A0#32) ∧ (encodeWord v rt).extractLsb' 0 5 = rt := by
  intro v
  cases v <;> decide

/-- The word of an encodable instruction. -/
theorem of_encode {i : Instr} {w : Word32} (h : encode i = some w) : w = encodeWord i.variant i.t := by
  unfold encode at h
  split at h
  · exact (Option.some.inj h).symm
  · cases h

theorem tlbipVale2is (t t2 : RegNum) : Statement (.tlbipVale2is t t2) := by
  intro w h
  rw [of_encode h]
  exact encodeWord_fields _ _

theorem tlbipVale2isnxs (t t2 : RegNum) : Statement (.tlbipVale2isnxs t t2) := by
  intro w h
  rw [of_encode h]
  exact encodeWord_fields _ _

end Sys2Proof.Laws.EncodedWord
end

