-- ==== Sys2Proof/Tests/Slice0.lean ====
section
/-! SUPPORT. Tests.  Expected results come from 95_test_vectors.md (its vector names stand in the comments) or from the rule
named; `test_witness_X` shows that the hypotheses of the obligation `X` can be met. -/

namespace Sys2Proof.Machine

/-! ### The sample machine of 95_test_vectors 2.4 and 3 -/

/-- The next state of an answer, if it is one. -/
def tNext {α : Type} (o : Result α) : Option α :=
  match o with
  | .next a => some a
  | _ => none

def tFault {α : Type} (o : Result α) : Option Fault :=
  match o with
  | .fault r => some r
  | _ => none

def tRefusal {α : Type} (o : Result α) : Option Refusal :=
  match o with
  | .refused r => some r
  | _ => none

theorem tNext_some {α : Type} {o : Result α} {a : α} (h : tNext o = some a) : o = .next a := by
  cases o <;> simp_all [tNext]

/-- NS is the Security state 0 and S is 1.  No FEAT_LPA2, no FEAT_RME, 16-bit ASIDs, two PEs in one domain. -/
def tCfg : Config :=
  { resetConfig with featLPA2 := false, featRME := false, ssOf := ⟨⟨1⟩, ⟨0⟩, ⟨0⟩, ⟨0⟩, ⟨0⟩, ⟨0⟩⟩ }

def tP : PageNum := 0x7F1234567#44

def tE2 : Entry :=
  { stage1 := true, descBits := .d64, regime := .tlbi .el20, security := ⟨0⟩, ranges := [⟨tP, 1⟩], finalLevel := true,
    granule := .kb4, level := 3, isGlobal := false, asid := 0x0042#16 }

def tBig : List PageRange := [⟨0x7F1234400#44, 512⟩]
def tE1 : Entry := { tE2 with regime := .tlbi .el2, asid := 0#16 }
def tE3 : Entry := { tE2 with asid := 0x0043#16 }
def tE4 : Entry := { tE2 with isGlobal := true, asid := 0#16 }
def tE5 : Entry := { tE2 with descBits := .d128 }
def tE6 : Entry := { tE2 with level := 2, ranges := tBig }
def tE7 : Entry := { tE2 with finalLevel := false, level := 2, ranges := tBig }
def tE8 : Entry := { tE2 with security := ⟨1⟩ }
def tE9 : Entry := { tE2 with regime := .other 0 }
def tE10 : Entry := { tE2 with ranges := [⟨0x7F1234568#44, 1⟩] }
def tE11 : Entry := { tE2 with stage1 := false }
def tE12 : Entry := { tE2 with granule := .kb16, ranges := [⟨0x7F1234564#44, 4⟩] }

def tT : List Entry := [tE1, tE2, tE3, tE4, tE5, tE6, tE7, tE8, tE9, tE10, tE11]

/-- A PE at address 0x1000 with EL2 enabled, in the EL2&0 regime and Security state NS. -/
def tPe (el : El) (nv : BitVec 1) (lo hi : Word64) (tlb : List Entry) : Pe :=
  { x := ((Vector.replicate 31 0#64).set 2 lo).set 3 hi, pc := 0x1000#64, pstate := ⟨el⟩, hcrEl2 := ⟨1#1, nv⟩,
    scrEl3 := ⟨1#1, 0#1⟩, el2On := true, granules := ⟨[], .kb4⟩, tlb := tlb, exc := none }

/-- `TLBIP VALE2IS, X2, X3` (W2) stands at address 0x1000 and PE 0 is about to run it; the two PEs share a TLB content. -/
def tState (c : Config) (el : El) (nv : BitVec 1) (lo hi : Word64) (tlb : List Entry) : State :=
  { cfg := c, mem := writeBytes [] 0x1000 [0xA2#8, 0x83#8, 0x4C#8, 0xD5#8],
    pes := [tPe el nv lo hi tlb, tPe .el0 0#1 0#64 0#64 tlb], cur := 0, accesses := [], pending := [], agenda := [] }

def tLo : Word64 := 0x0042000000000000#64
def tHi : Word64 := 0x00000007F1234567#64

/-- Program 1's start. -/
def tStart : State := tState tCfg .el2 0#1 tLo tHi tT

def tIs : Instr := .tlbipVale2is 2#5 3#5
def tNxs : Instr := .tlbipVale2isnxs 2#5 3#5

/-- The operation of vector M with these fields. -/
def tArgs (r : Regime) (ss : Nat) (va : PageNum) (asid : BitVec 16) (ttl : BitVec 4) (attr : TlbiAttr) : TlbipArgs :=
  { security := ⟨ss⟩, regime := r, vmid := .none, shareability := .ish, level := .last, attr := attr,
    op128 := 0#20 ++ va ++ asid ++ ttl ++ 0#44 }

/-- The operation of 2.5: on PE 0 it must remove E2, on PE 1 nothing. -/
def tOp (attr : TlbiAttr) (todo : List Entry) : Op :=
  { args := tArgs .el20 0 tP 0x0042#16 0#4 attr, issuer := 0, targets := [⟨0, [tE2], todo⟩, ⟨1, [], []⟩] }

/-- Two PEs whose TLBs hold E2 (PE 0) and E10 (both), one operation pending, these accesses in flight, these moves next. -/
def tBusy (attr : TlbiAttr) (todo tlb : List Entry) (acc : List MemAccess) (agenda : List Move) : State :=
  { tStart with pes := [tPe .el2 0#1 tLo tHi tlb, tPe .el0 0#1 0#64 0#64 [tE10]], accesses := acc,
                pending := [tOp attr todo], agenda := agenda }

/-! ### Well-formedness and decoding -/

theorem test_ill_formed_t : Instr.wellFormed (.tlbipVale2is 31#5 0#5) = false := by decide
theorem test_ill_formed_t2 : Instr.wellFormed (.tlbipVale2isnxs 30#5 31#5) = false := by decide
theorem test_not_encodable_odd : Instr.encodable (.tlbipVale2is 1#5 2#5) = false := by decide
theorem test_not_encodable_30 : Instr.encodable (.tlbipVale2is 30#5 31#5) = false := by decide
theorem test_not_encodable_no_pair : Instr.encodable (.tlbipVale2isnxs 2#5 4#5) = false := by decide

/-- W1 to W5, the bytes as 95_test_vectors writes them. -/
theorem test_decode_vale2is :
    decode [0xA0#8, 0x83#8, 0x4C#8, 0xD5#8] = (.ok (.tlbipVale2is 0#5 1#5), []) ∧
    decode [0xA2#8, 0x83#8, 0x4C#8, 0xD5#8, 0#8] = (.ok (.tlbipVale2is 2#5 3#5), [0#8]) ∧
    decode [0xBE#8, 0x83#8, 0x4C#8, 0xD5#8] = (.reject .rt30, []) ∧
    decode [0xBF#8, 0x83#8, 0x4C#8, 0xD5#8] = (.reject .rt31, []) ∧
    decode [0xA1#8, 0x83#8, 0x4C#8, 0xD5#8] = (.reject (.oddRt 1#5), []) := by decide

/-- W6 to W8, and the largest register pair. -/
theorem test_decode_vale2isnxs :
    decode [0xA0#8, 0x93#8, 0x4C#8, 0xD5#8] = (.ok (.tlbipVale2isnxs 0#5 1#5), []) ∧
    decode [0xA4#8, 0x93#8, 0x4C#8, 0xD5#8] = (.ok (.tlbipVale2isnxs 4#5 5#5), []) ∧
    decode [0xBC#8, 0x93#8, 0x4C#8, 0xD5#8] = (.ok (.tlbipVale2isnxs 28#5 29#5), []) ∧
    decode [0xA0#8, 0xA3#8, 0x4C#8, 0xD5#8] = (.reject (.notThisInstruction 0xD54CA3A0#32), []) ∧
    decode [0xA0#8, 0x93#8, 0x4C#8] = (.reject .tooShort, [0xA0#8, 0x93#8, 0x4C#8]) := by decide

/-- W1 bit by bit, with the fields of R53 in the layout of R56: 1101010101 0 01 100 1000 0011 101 00000. -/
theorem test_word_bits :
    decodeWord (0b1101010101#10 ++ 0b0#1 ++ 0b01#2 ++ 0b100#3 ++ 0b1000#4 ++ 0b0011#4 ++ 0b101#3 ++ 0b00000#5) =
      .ok (.tlbipVale2is 0#5 1#5) ∧
    decodeWord (0b1101010101#10 ++ 0b0#1 ++ 0b01#2 ++ 0b100#3 ++ 0b1001#4 ++ 0b0011#4 ++ 0b101#3 ++ 0b00100#5) =
      .ok (.tlbipVale2isnxs 4#5 5#5) := by decide

theorem test_assemble :
    assemble (.tlbip ['v', 'a', 'l', 'e', '2', 'i', 's'] (some (5#5, 5#5))) = .ok (.tlbipVale2is 5#5 5#5) ∧
    assemble (.sysp 4#3 9#4 3#4 5#3 (some (0#5, 30#5))) = .ok (.tlbipVale2isnxs 0#5 30#5) ∧
    assemble (.tlbip ['V', 'A', 'L', 'E', '2', 'I', 'S'] none) = .reject .registersNotShown ∧
    assemble (.sysp 4#3 10#4 3#4 5#3 (some (0#5, 1#5))) = .reject .notThisInstruction ∧
    assemble (.tlbip ['V', 'A', 'L', 'E', '2', 'I', 'S'] (some (30#5, 31#5))) = .reject .registerNotInFile := by
  decide

/-! ### The operand: V1 to V9 and the TTL table -/

theorem test_operand_v1 :
    vaOf (op128Of 0x0042700000000000#64 0x00000007F1234567#64) = 0x7F1234567#44 ∧
    asidOf (op128Of 0x0042700000000000#64 0x00000007F1234567#64) = 0x0042#16 ∧
    ttlOf (op128Of 0x0042700000000000#64 0x00000007F1234567#64) = 0b0111#4 := by decide

theorem test_operand_v4 :
    vaOf (op128Of 0x1234D00000000000#64 0x00000FF800000100#64) = 0xFF800000100#44 ∧
    asidOf (op128Of 0x1234D00000000000#64 0x00000FF800000100#64) = 0x1234#16 ∧
    ttlOf (op128Of 0x1234D00000000000#64 0x00000FF800000100#64) = 0b1101#4 := by decide

/-- The two `Res0OK` columns of V1, V2, V3, V5, V6, V8, V9. -/
theorem test_res0 :
    [(0x0042700000000000#64, 0x00000007F1234567#64), (0#64, 0#64), (0xFFFFF00000000000#64, 0x00000FFFFFFFFFFF#64),
      (0#64, 0x0000100000000000#64), (1#64, 0#64), (0x0042700000000001#64, 0x00000007F1234567#64),
      (0#64, 0x8000000000000000#64)].map (fun v =>
        (res0OK tCfg (op128Of v.1 v.2), res0OK { tCfg with featTTL := false } (op128Of v.1 v.2))) =
    [(true, false), (true, true), (true, false), (false, false), (false, false), (false, false), (false, false)] := by
  decide

/-- The reserved and conditional rows of the TTL table. -/
theorem test_ttl :
    ttlHint tCfg 0b0100#4 = none ∧ ttlHint { tCfg with featLPA2 := true } 0b0100#4 = some (.kb4, 0) ∧
    ttlHint tCfg 0b1001#4 = none ∧ ttlHint { tCfg with featLPA2 := true } 0b1001#4 = some (.kb16, 1) ∧
    ttlHint tCfg 0b1101#4 = some (.kb64, 1) ∧ ttlHint { tCfg with featTTL := false } 0b0101#4 = none := by decide

/-! ### Access outcomes: A1 to A22 -/

/-- What the checks decide at a level, with E2H 1 and EL2 enabled or not. -/
def tAccess (v : Variant) (d128 xs : Bool) (el : El) (en : Bool) (nv : BitVec 1) : AccessDecision :=
  accessCheck v { tCfg with featD128 := d128, featXS := xs } { tPe el nv 0#64 0#64 [] with el2On := en }

theorem test_access_vale2is :
    tAccess .vale2is false true .el2 true 0#1 = .undefined ∧ tAccess .vale2is false true .el1 true 1#1 = .undefined ∧
    tAccess .vale2is true false .el2 true 0#1 = .permit .el20 ∧ tAccess .vale2is true true .el0 true 1#1 = .undefined ∧
    tAccess .vale2is true true .el1 false 1#1 = .undefined ∧ tAccess .vale2is true true .el1 true 0#1 = .undefined ∧
    tAccess .vale2is true true .el1 true 1#1 = .trapped ∧ tAccess .vale2is true true .el2 true 1#1 = .permit .el20 ∧
    tAccess .vale2is true true .el3 false 0#1 = .undefined ∧ tAccess .vale2is true true .el3 true 0#1 = .permit .el20 := by
  decide

theorem test_access_vale2isnxs :
    tAccess .vale2isnxs true false .el2 true 0#1 = .undefined ∧
    tAccess .vale2isnxs true false .el1 true 1#1 = .undefined ∧
    tAccess .vale2isnxs false true .el2 true 0#1 = .undefined ∧
    tAccess .vale2isnxs true true .el1 true 1#1 = .trapped ∧ tAccess .vale2isnxs true true .el1 true 0#1 = .undefined ∧
    tAccess .vale2isnxs true true .el2 true 0#1 = .permit .el20 ∧
    tAccess .vale2isnxs true true .el3 true 0#1 = .permit .el20 := by decide

/-- A11: with E2H 0 the regime is EL2. -/
theorem test_access_regime_el2 :
    accessCheck .vale2is tCfg { tPe .el3 0#1 0#64 0#64 [] with hcrEl2 := ⟨0#1, 0#1⟩ } = .permit .el2 := by decide

/-! ### Required sets: M1 to M11, K1 to K5 -/

def tReq (a : TlbipArgs) : List Entry × List Entry :=
  (required tCfg .kb4 a tT, required { tCfg with ttlReading := .perEntry } .kb4 a tT)

theorem test_required_m1 : tReq (tArgs .el20 0 tP 0x0042#16 0#4 .allAttr) = ([tE2, tE4, tE5, tE6], [tE2, tE4, tE5, tE6]) := by
  decide
theorem test_required_m2 : tReq (tArgs .el20 0 tP 0x0042#16 0b0111#4 .allAttr) = ([], [tE2, tE4]) := by decide
theorem test_required_m3 : tReq (tArgs .el2 0 tP 0x9999#16 0#4 .allAttr) = ([tE1], [tE1]) := by decide
theorem test_required_m4 : tReq (tArgs .el20 0 tP 0x0043#16 0#4 .allAttr) = ([tE3, tE4], [tE3, tE4]) := by decide
theorem test_required_m5 : tReq (tArgs .el20 1 tP 0x0042#16 0#4 .allAttr) = ([tE8], [tE8]) := by decide
theorem test_required_m6 : tReq (tArgs .el20 0 (tP + 1#44) 0x0042#16 0#4 .allAttr) = ([tE6, tE10], [tE6, tE10]) := by decide
theorem test_required_m7 : tReq (tArgs .el20 0 tP 0x0042#16 0b0110#4 .allAttr) = ([], [tE6]) := by decide
theorem test_required_m9 :
    tReq (tArgs .el20 0 tP 0x0042#16 0b1000#4 .allAttr) = ([tE2, tE4, tE6], [tE2, tE4, tE6]) := by decide
theorem test_required_m10 : tReq (tArgs .el20 0 tP 0x0142#16 0#4 .allAttr) = ([tE4], [tE4]) := by decide
theorem test_required_m11 : tReq (tArgs .el20 0 0#44 0#16 0#4 .allAttr) = ([], []) := by decide

def tCand (g : Granule) (va : PageNum) : List Entry :=
  candidates tCfg g (tArgs .el20 0 va 0x0042#16 0#4 .allAttr) (tT ++ [tE12])

theorem test_granule_k1_k2_k3 :
    tCand .kb16 0x7F1234567#44 = [tE6, tE12] ∧ tCand .kb16 0x7F1234564#44 = [tE6, tE12] ∧
    tCand .kb16 0x7F1234565#44 = [tE6, tE12] := by decide
theorem test_granule_k4_k5 :
    tCand .kb64 0x7F1234567#44 = [tE6] ∧ tCand .kb4 0x7F1234567#44 = [tE2, tE4, tE5, tE6, tE12] := by decide

/-! ### Completion: F1 to F4 -/

def tA1 (done : Bool) : MemAccess := ⟨0, [tE2], 0#1, done⟩
def tA2 (done : Bool) : MemAccess := ⟨0, [tE2], 1#1, done⟩
def tA3 (done : Bool) : MemAccess := ⟨0, [tE3], 0#1, done⟩
def tA4 (done : Bool) : MemAccess := ⟨1, [tE10], 0#1, done⟩

/-- Whether the operation of 2.5 may complete, in each variant. -/
def tMay (todo : List Entry) (acc : List MemAccess) : Bool × Bool :=
  (canComplete acc (tOp .allAttr todo), canComplete acc (tOp .excludeXS todo))

theorem test_completion_f1_f2_f3_f4 :
    tMay [tE2] [tA1 true, tA2 true, tA3 true, tA4 true] = (false, false) ∧
    tMay [] [tA1 false, tA2 false, tA3 false, tA4 false] = (false, false) ∧
    tMay [] [tA1 true, tA2 false, tA3 false, tA4 false] = (false, true) ∧
    tMay [] [tA1 true, tA2 true, tA3 false, tA4 false] = (true, true) := by decide

/-! ### One step: the starts of programs 1, 3 and 4 -/

/-- Program 1, step 1. -/
theorem test_step_vale2is :
    (tNext (step tStart)).map (fun s => (s.pes.map (·.pc), s.pending.map (fun op => (op.args, op.targets.map (·.req))))) =
      some ([0x1004#64, 0x1000#64],
        [(tArgs .el20 0 tP 0x0042#16 0#4 .allAttr, [[tE2, tE4, tE5, tE6], [tE2, tE4, tE5, tE6]])]) := by decide

/-- Program 1 with the other variant: only the attribute differs (R45). -/
theorem test_exec_vale2isnxs :
    (tNext (exec tNxs tStart)).map (fun s => (s.pes.map (·.pc), s.pending.map (fun op => (op.args, op.targets.map (·.req))))) =
      some ([0x1004#64, 0x1000#64],
        [(tArgs .el20 0 tP 0x0042#16 0#4 .excludeXS, [[tE2, tE4, tE5, tE6], [tE2, tE4, tE5, tE6]])]) := by decide

/-- Program 3: at EL1 the trap is recorded, or with NV 0 Undefined; no operation, same `pc`. -/
theorem test_step_el1 :
    (tNext (step (tState tCfg .el1 1#1 tLo tHi tT))).map (fun s => (s.pes.map (fun p => (p.pc, p.exc)), s.pending)) =
      some ([(0x1000#64, some (.trapped 0 0x1000#64 .vale2is 2#5 3#5 .el2 0x14)), (0x1000#64, none)], []) ∧
    (tNext (step (tState tCfg .el1 0#1 tLo tHi tT))).map (fun s => (s.pes.map (fun p => (p.pc, p.exc)), s.pending)) =
      some ([(0x1000#64, some (.undefined 0 0x1000#64 .vale2is)), (0x1000#64, none)], []) := by decide

/-- Program 4 (a): at EL3 with NS 0 the operation is for Security state S and requires E8. -/
theorem test_exec_el3_secure :
    (tNext (exec tIs { tStart with
        pes := [{ tPe .el3 0#1 tLo tHi tT with scrEl3 := ⟨0#1, 0#1⟩ }, tPe .el0 0#1 0#64 0#64 tT] })).map
      (fun s => s.pending.map (fun op => (op.args.security, op.targets.map (·.req)))) =
      some [(⟨1⟩, [[tE8], [tE8]])] := by decide

/-! ### The hypotheses of the obligations can be met -/

/-- The executing PE of the sample state at a level. -/
theorem tCanExecute (c : Config) (el : El) (nv : BitVec 1) (lo hi : Word64) (tlb : List Entry) :
    CanExecute (tState c el nv lo hi tlb) (tPe el nv lo hi tlb) :=
  ⟨rfl, rfl, (by decide : (0x1000#64).toNat % 4 = 0), (by decide : (0x1000#64).toNat ≠ 2 ^ 64 - 4)⟩

theorem tOperandIs (el : El) (nv : BitVec 1) (lo hi : Word64) (tlb : List Entry) :
    OperandIs (tPe el nv lo hi tlb) 2#5 3#5 lo hi := ⟨rfl, rfl⟩

theorem test_witness_DecodeOfEncodeIsIdentity :
    Instr.encodable (.tlbipVale2is 0#5 1#5) = true ∧ Instr.encodable (.tlbipVale2isnxs 28#5 29#5) = true := by decide

theorem test_witness_EncodeOfDecodeIsIdentity :
    decodeWord 0xD54C83A2#32 = .ok (.tlbipVale2is 2#5 3#5) ∧ decodeWord 0xD54C93BC#32 = .ok (.tlbipVale2isnxs 28#5 29#5) := by
  decide

theorem test_witness_MatchAndMaskSelectTheWords :
    decodeWord 0xD54C83BC#32 = .ok (.tlbipVale2is 28#5 29#5) ∧ decodeWord 0xD54C93A0#32 = .ok (.tlbipVale2isnxs 0#5 1#5) := by
  decide

theorem test_witness_OtherWordsAreRejectedByName :
    decodeWord 0xD54C83BF#32 = .reject .rt31 ∧ decodeWord 0xD54C93BE#32 = .reject .rt30 ∧
    decodeWord 0xD54C93BD#32 = .reject (.oddRt 29#5) ∧ decodeWord 0xD54C83A1#32 = .reject (.oddRt 1#5) ∧
    decodeWord 0xD54C83C0#32 = .reject (.notThisInstruction 0xD54C83C0#32) := by decide

theorem test_witness_BothSpellingsAssemble :
    Instr.wellFormed (.tlbipVale2is 30#5 30#5) = true ∧ Instr.wellFormed (.tlbipVale2isnxs 0#5 30#5) = true := by decide

theorem test_witness_AssembledLinesNameTheirInstruction :
    AsmLine.regs (.sysp 4#3 8#4 3#4 5#3 none) = none ∧
    assemble (.sysp 4#3 8#4 3#4 5#3 (some (1#5, 2#5))) = .ok (.tlbipVale2is 1#5 2#5) ∧
    assemble (.tlbip ['v', 'a', 'l', 'e', '2', 'i', 's', 'n', 'x', 's'] (some (1#5, 2#5))) =
      .ok (.tlbipVale2isnxs 1#5 2#5) := by decide

theorem test_witness_StepRunsTheDecodedInstruction :
    CanExecute tStart (tPe .el2 0#1 tLo tHi tT) ∧ readByte tStart.mem 0x1000 = some 0xA2#8 ∧
    readByte tStart.mem 0x1001 = some 0x83#8 ∧ readByte tStart.mem 0x1002 = some 0x4C#8 ∧
    readByte tStart.mem 0x1003 = some 0xD5#8 ∧ decode [0xA2#8, 0x83#8, 0x4C#8, 0xD5#8] = (.ok tIs, []) ∧
    tStart.agenda = [] :=
  ⟨tCanExecute .., by decide, by decide, by decide, by decide, by decide, rfl⟩

theorem test_witness_StepPerformsTheScheduledMove :
    (tBusy .allAttr [tE2] [tE2, tE10] [] [.agent (.evict 0 tE10)]).agenda = .agent (.evict 0 tE10) :: [] := rfl

/-- PE 0 of the program 1 start, changed. -/
def tWith (f : Pe → Pe) (m : Memory) : State := { tStart with pes := tStart.pes.modify 0 f, mem := m }

theorem test_witness_StepStopsBeforeExecution :
    tRefusal (step { tStart with cur := 2 }) = some (.noSuchPe 2) ∧
    tFault (step (tWith (fun p => { p with exc := some (.undefined 0 0x1000#64 .vale2is) }) tStart.mem)) =
      some (.exceptionRecorded (.undefined 0 0x1000#64 .vale2is)) ∧
    tRefusal (step (tWith (fun p => { p with pc := 0x1002#64 }) tStart.mem)) = some (.pcMisaligned 0x1002#64) ∧
    tRefusal (step (tWith (fun p => { p with pc := topPc }) tStart.mem)) = some .pcAtTop ∧
    tRefusal (step (tWith id (writeByte tStart.mem 0x1000 0xA3#8))) = some (.notDecoded (.oddRt 3#5)) ∧
    tFault (step (tWith id [])) = some (.fetchUnwritten 0x1000) ∧
    tFault (step (tWith id (writeBytes [] 0x1000 [0xA2#8, 0x83#8, 0x4C#8]))) = some (.fetchUnwritten 0x1003) := by decide

theorem test_witness_PlacedWordRunsNext :
    CanExecute tStart (tPe .el2 0#1 tLo tHi tT) ∧ encode tNxs = some 0xD54C93A2#32 ∧
    tNext (fetch (tStart.withFetchWord 32 0xD54C93A2)) = some 0xD54C93A2#32 :=
  ⟨tCanExecute .., by decide, by decide⟩

theorem test_witness_Vale2isIssues :
    CanExecute tStart (tPe .el2 0#1 tLo tHi tT) ∧ OperandIs (tPe .el2 0#1 tLo tHi tT) 2#5 3#5 tLo tHi ∧
    MayIssue .vale2is tCfg (tPe .el2 0#1 tLo tHi tT) ∧ ReservedBitsZero tCfg tLo tHi ∧
    AsidHasMeaning tCfg (tPe .el2 0#1 tLo tHi tT) tLo :=
  ⟨tCanExecute .., tOperandIs .., by decide, by decide, by decide⟩

/-- At EL3, with 8-bit ASIDs and no FEAT_TTL, and the largest operand that they admit. -/
theorem test_witness_Vale2isnxsIssues :
    let c := { tCfg with asidBits := .b8, featTTL := false }
    let p := tPe .el3 0#1 0x00FF000000000000#64 0x00000FFFFFFFFFFF#64 tT
    CanExecute (tState c .el3 0#1 0x00FF000000000000#64 0x00000FFFFFFFFFFF#64 tT) p ∧
    OperandIs p 2#5 3#5 0x00FF000000000000#64 0x00000FFFFFFFFFFF#64 ∧ MayIssue .vale2isnxs c p ∧
    ReservedBitsZero c 0x00FF000000000000#64 0x00000FFFFFFFFFFF#64 ∧ AsidHasMeaning c p 0x00FF000000000000#64 :=
  ⟨tCanExecute .., tOperandIs .., by decide, by decide, by decide⟩

theorem test_witness_PrivilegePerLevel :
    tCfg.featD128 = true ∧ tCfg.featXS = true ∧
    [El.el0, .el1, .el2, .el3].map (fun el => (tPe el 1#1 tLo tHi tT).pstate.el) = [.el0, .el1, .el2, .el3] := by decide

theorem test_witness_NvIsReadAtEl1Only :
    ¬((tPe .el2 1#1 tLo tHi tT).pstate.el = .el1 ∧ el2Enabled tCfg (tPe .el2 1#1 tLo tHi tT) = true) ∧
    (tPe .el1 1#1 tLo tHi tT).pstate.el = .el1 ∧ el2Enabled tCfg (tPe .el1 1#1 tLo tHi tT) = true ∧
    tCfg.featD128 = true ∧ tCfg.featXS = true ∧ (tNext (exec tIs tStart)).isSome = true := by decide

theorem test_witness_UndefinedRecordsAndChangesNothingElse :
    CanExecute (tState tCfg .el0 0#1 tLo tHi tT) (tPe .el0 0#1 tLo tHi tT) ∧ tNxs.wellFormed = true ∧
    exec tNxs (tState tCfg .el0 0#1 tLo tHi tT) =
      .next (recordedState (tState tCfg .el0 0#1 tLo tHi tT) (tPe .el0 0#1 tLo tHi tT)
        (.undefined 0 0x1000#64 .vale2isnxs)) :=
  ⟨tCanExecute .., by decide, tNext_some (by decide)⟩

theorem test_witness_TrapRecordsAndChangesNothingElse :
    CanExecute (tState tCfg .el1 1#1 tLo tHi tT) (tPe .el1 1#1 tLo tHi tT) ∧ tNxs.wellFormed = true ∧
    exec tNxs (tState tCfg .el1 1#1 tLo tHi tT) =
      .next (recordedState (tState tCfg .el1 1#1 tLo tHi tT) (tPe .el1 1#1 tLo tHi tT)
        (.trapped 0 0x1000#64 .vale2isnxs 2#5 3#5 .el2 0x14)) :=
  ⟨tCanExecute .., by decide, tNext_some (by decide)⟩

/-- The second clause is program 5: an operand with reserved bits. -/
theorem test_witness_RefusedOperands :
    CanExecute tStart (tPe .el2 0#1 tLo tHi tT) ∧
    tRefusal (step (tState tCfg .el2 0#1 0x0042000000000567#64 0x00000007F1234000#64 tT)) =
      some (.reservedOperandBit 0x00000007F12340000042000000000567#128) ∧
    tRefusal (exec (.tlbipVale2is 30#5 31#5) tStart) = some .registerNotInFile ∧
    tRefusal (exec (.tlbipVale2isnxs 31#5 0#5) (tState tCfg .el0 0#1 tLo tHi tT)) = some .registerNotInFile ∧
    ¬ReservedBitsZero tCfg 0x00000FFFFFFFFFFF#64 0#64 ∧ ¬ReservedBitsZero { tCfg with featTTL := false } 0x0000100000000000#64 0#64 ∧
    ReservedBitsZero tCfg 0x0100000000000000#64 0#64 ∧
    ¬AsidHasMeaning { tCfg with asidBits := .b8 } (tPe .el2 0#1 tLo tHi tT) 0x0100000000000000#64 :=
  ⟨tCanExecute .., by decide, by decide, by decide, by decide, by decide, by decide, by decide⟩

theorem test_witness_StoppedPeExecutesNothing :
    tFault (exec tNxs (tWith (fun p => { p with exc := some (.undefined 0 0x1000#64 .vale2is) }) [])) =
      some (.exceptionRecorded (.undefined 0 0x1000#64 .vale2is)) ∧
    tRefusal (exec tIs (tWith (fun p => { p with pc := 1#64 }) [])) = some (.pcMisaligned 1#64) ∧
    tRefusal (exec tIs (tWith (fun p => { p with pc := topPc }) [])) = some .pcAtTop ∧
    (tNext (exec tIs (tWith (fun p => { p with pc := 0xFFFFFFFFFFFFFFF8#64 }) []))).isSome = true := by decide

theorem test_witness_FrameOfBothInstructions :
    (tNext (exec tIs tStart)).isSome = true ∧ (tNext (exec tNxs tStart)).isSome = true := by decide

theorem test_witness_VariantsDifferInTheAttributeOnly :
    tStart.cfg.featXS = true ∧ (tNext (exec tIs tStart)).isSome = true ∧ (tNext (exec tNxs tStart)).isSome = true ∧
    (tNext (exec tIs (tState tCfg .el0 0#1 tLo tHi tT))).isSome = true ∧
    (tNext (exec tNxs (tState tCfg .el1 1#1 tLo tHi tT))).isSome = true := by decide

theorem test_witness_SameRegisterTwiceAdmitsOnlyZero :
    CanExecute tStart (tPe .el2 0#1 tLo tHi tT) ∧ OperandIs (tPe .el2 0#1 tLo tHi tT) 2#5 2#5 tLo tLo ∧
    OperandIs (tPe .el2 0#1 tLo tHi tT) 0#5 0#5 0#64 0#64 ∧ MayIssue .vale2is tCfg (tPe .el2 0#1 tLo tHi tT) ∧
    (tNext (exec (.tlbipVale2is 2#5 2#5) tStart)).isNone = true ∧
    (tNext (exec (.tlbipVale2is 0#5 0#5) tStart)).isSome = true :=
  ⟨tCanExecute .., ⟨rfl, rfl⟩, ⟨rfl, rfl⟩, by decide, by decide, by decide⟩

theorem test_witness_ExceptionalOutcomesReadNoRegister :
    CanExecute (tState tCfg .el0 0#1 tLo tHi tT) (tPe .el0 0#1 tLo tHi tT) ∧
    exec tIs (tState tCfg .el0 0#1 tLo tHi tT) =
      .next (recordedState (tState tCfg .el0 0#1 tLo tHi tT) (tPe .el0 0#1 tLo tHi tT)
        (.undefined 0 0x1000#64 .vale2is)) :=
  ⟨tCanExecute .., tNext_some (by decide)⟩

/-- The other PE at another level, with another address and a record, but the same TLB. -/
def tOther : List Pe :=
  [tPe .el2 0#1 tLo tHi tT, { tPe .el3 1#1 tHi tLo tT with pc := 7#64, exc := some (.undefined 1 7#64 .vale2is) }]

theorem test_witness_OtherPesPlayNoPart :
    tOther.length = tStart.pes.length ∧ tOther[tStart.cur]? = tStart.pes[tStart.cur]? ∧
    tOther.map Pe.tlb = tStart.pes.map Pe.tlb ∧ (tNext (exec tIs tStart)).isSome = true := by decide

theorem test_witness_El2EnabledMeetsItsConstraints :
    el2Enabled { tCfg with haveEL2 := false } (tPe .el2 0#1 tLo tHi tT) = false ∧
    el2Enabled tCfg { tPe .el2 0#1 tLo tHi tT with el2On := false } = true ∧
    el2Enabled tCfg { tPe .el3 0#1 tLo tHi tT with el2On := false } = false ∧
    el2Enabled tCfg (tPe .el1 0#1 tLo tHi tT) = true ∧ tCfg.haveEL2 = true ∧
    (tNext (exec tIs tStart)).isSome = true := by decide

theorem test_witness_SecurityStateFromScr :
    tCfg.featRME = false ∧ resetConfig.featRME = true ∧
    [(0#1, 0#1), (1#1, 0#1), (0#1, 1#1), (1#1, 1#1)].map (fun b =>
      let p : Pe := { tPe .el3 0#1 tLo tHi tT with scrEl3 := { ns := b.1, nse := b.2 } }
      (securityStateAtEL2 tCfg p, securityStateAtEL2 resetConfig p)) =
    [(⟨1⟩, ⟨0⟩), (⟨0⟩, ⟨1⟩), (⟨1⟩, ⟨2⟩), (⟨0⟩, ⟨3⟩)] := by decide

theorem test_witness_TtlHintTable : tCfg.featTTL = true ∧ { tCfg with featTTL := false }.featTTL = false := by decide

theorem test_witness_ReservedTtlValuesAreNotErrors :
    let lo := 0x0042900000000000#64
    let p := tPe .el2 0#1 lo tHi tT
    CanExecute (tState tCfg .el2 0#1 lo tHi tT) p ∧ OperandIs p 2#5 3#5 lo tHi ∧ MayIssue .vale2isnxs tCfg p ∧
    ReservedBitsZero tCfg lo tHi ∧ AsidHasMeaning tCfg p lo ∧ tCfg.featLPA2 = false ∧ lo.extractLsb' 44 4 = 0b1001#4 :=
  ⟨tCanExecute .., tOperandIs .., by decide, by decide, by decide, rfl, by decide⟩

theorem test_witness_GranuleIgnoresItsOwnLowBits :
    let t : GranuleTable := ⟨[⟨.el20, ⟨0⟩, 0x10#44, 0x1F#44, .kb64⟩], .kb4⟩
    granuleUsed t .el20 ⟨0⟩ 0x1F#44 = .kb64 ∧ granuleUsed t .el20 ⟨0⟩ 0x20#44 = .kb4 ∧
    (0x10#44).toNat / 2 ^ granuleBits (granuleUsed t .el20 ⟨0⟩ 0x1F#44) =
      (0x1F#44).toNat / 2 ^ granuleBits (granuleUsed t .el20 ⟨0⟩ 0x1F#44) := by decide

theorem test_witness_RequiredSetIsWhatTheSpecSays :
    tCfg.ttlReading = .allOrNothing ∧ { tCfg with ttlReading := .perEntry }.ttlReading = .perEntry ∧
    tE2 ∈ required tCfg .kb4 (tArgs .el20 0 tP 0x0042#16 0#4 .allAttr) tT := by decide

theorem test_witness_LowVaBitsAreIgnored :
    let a := tArgs .el20 0 0x7F1234564#44 0x0042#16 0#4 .allAttr
    let b := tArgs .el20 0 0x7F1234567#44 0x0042#16 0#4 .allAttr
    b.op128.extractLsb' 0 64 = a.op128.extractLsb' 0 64 ∧
    (vaOf b.op128).toNat / 2 ^ granuleBits .kb16 = (vaOf a.op128).toNat / 2 ^ granuleBits .kb16 ∧
    b.op128 ≠ a.op128 := by decide

theorem test_witness_UpperAsidByteMissesEightBitContexts :
    let a := tArgs .el20 0 tP 0x0142#16 0#4 .allAttr
    let lo := 0x0142000000000000#64
    tCfg.asidBits = .b16 ∧ a.regime = .el20 ∧ (asidOf a.op128).toNat / 2 ^ 8 ≠ 0 ∧ tE2.isGlobal = false ∧
    tE2.asid.toNat / 2 ^ 8 = 0 ∧ tE4.isGlobal = true ∧
    CanExecute (tState tCfg .el2 0#1 lo tHi tT) (tPe .el2 0#1 lo tHi tT) ∧
    OperandIs (tPe .el2 0#1 lo tHi tT) 2#5 3#5 lo tHi ∧ MayIssue .vale2is tCfg (tPe .el2 0#1 lo tHi tT) ∧
    ReservedBitsZero tCfg lo tHi :=
  ⟨rfl, rfl, by decide, rfl, by decide, rfl, tCanExecute .., tOperandIs .., by decide, by decide⟩

theorem test_witness_RequiredEntriesAreOfTheSelectedRegime :
    (tNext (exec tIs tStart)).map (fun s => (s.pending.drop tStart.pending.length).map (fun op => op.targets.length)) =
      some [2] := by decide

/-- Both forms of a removal, of an entry that is still cached. -/
theorem test_witness_RemovalTakesTheEntryOut :
    (tNext (agentStep (.remove 0 0 tE2 false) (tBusy .allAttr [tE2] [tE2, tE10] [] []))).map
        (fun s => (s.pes.map Pe.tlb, s.pending)) = some ([[tE10], [tE10]], [tOp .allAttr []]) ∧
    (tNext (agentStep (.remove 0 0 tE2 true) (tBusy .allAttr [tE2] [tE2, tE10] [] []))).map
        (fun s => (s.pes.map Pe.tlb, s.pending)) = some ([[tE10], [tE10]], [tOp .allAttr []]) ∧
    tRefusal (agentStep (.remove 0 1 tE2 false) (tBusy .allAttr [tE2] [tE2, tE10] [] [])) =
      some (.moveNotEnabled (.remove 0 1 tE2 false)) := by decide

theorem test_witness_CompletionExactlyWhenNothingIsLeft :
    (tNext (agentStep (.complete 0) (tBusy .allAttr [] [tE10] [tA1 true, tA2 true, tA3 false] []))).map State.pending =
      some [] ∧
    tRefusal (agentStep (.complete 0) (tBusy .allAttr [] [tE10] [tA1 true, tA2 false] [])) =
      some (.moveNotEnabled (.complete 0)) := by decide

theorem test_witness_NxsDoesNotWaitForXsAccesses :
    (tBusy .excludeXS [] [tE10] [tA1 true, tA2 false] []).pending[0]? = some (tOp .excludeXS []) ∧
    (tNext (agentStep (.complete 0) (tBusy .excludeXS [] [tE10] [tA1 true, tA2 false] []))).isSome = true ∧
    (tNext (agentStep (.complete 0) (tBusy .allAttr [] [tE10] [tA1 true, tA2 true] []))).isSome = true := by decide

/-- M11: the zero operand. -/
theorem test_witness_EmptyRequirementCompletesAtOnce :
    (tNext (exec tIs { tState tCfg .el2 0#1 0#64 0#64 tT with accesses := [tA1 false] })).map
      (fun s => s.pending.map (fun op => op.targets.map (·.req))) = some [[[], []]] := by decide

theorem test_witness_AnyEntryMayVanish :
    tStart.pes[1]? = some (tPe .el0 0#1 0#64 0#64 tT) ∧ tE8 ∈ (tPe .el0 0#1 0#64 0#64 tT).tlb := by decide

theorem test_witness_FillAddsOneEntry :
    tStart.pes[1]? = some (tPe .el0 0#1 0#64 0#64 tT) ∧ tE12.descBits = .d64 ∧ tE5.descBits = .d128 ∧
    tStart.cfg.featD128 = true ∧ (tNext (agentStep (.fill 1 tE12) tStart)).isSome = true ∧
    tRefusal (agentStep (.fill 1 tE5) { tStart with cfg := { tCfg with featD128 := false } }) =
      some (.moveNotEnabled (.fill 1 tE5)) ∧
    tStart.pes[2]? = none ∧ tRefusal (agentStep (.fill 2 tE12) tStart) = some (.moveNotEnabled (.fill 2 tE12)) := by decide

theorem test_witness_AccessesStartAndComplete :
    1 < tStart.pes.length ∧ (tBusy .allAttr [] [] [tA1 true, tA2 false] []).accesses[1]? = some (tA2 false) ∧
    (tA2 false).complete = false := by decide

/-- E2 and E3 both to remove from PE 0, in this order. -/
theorem test_witness_RemovalsComeInAnyOrder :
    ∃ s1 s2, agentStep (.remove 0 0 tE2 false) (tBusy .allAttr [tE2, tE3] [tE2, tE3] [] []) = .next s1 ∧
      agentStep (.remove 0 0 tE3 false) s1 = .next s2 ∧ (0, 0, tE2) ≠ ((0, 0, tE3) : Nat × PEId × Entry) :=
  ⟨_, _, rfl, rfl, by decide⟩

theorem tPeSound : ∀ el nv lo hi, PeSound tCfg 0 (tPe el nv lo hi [tE2, tE10]) ∧ PeSound tCfg 1 (tPe el nv lo hi [tE10]) :=
  fun _ _ _ _ => ⟨⟨(by decide : (0x1000#64).toNat % 4 = 0), (by decide : [tE2, tE10].Nodup), fun _ _ _ => rfl, trivial⟩,
    ⟨(by decide : (0x1000#64).toNat % 4 = 0), (by decide : [tE10].Nodup), fun _ _ _ => rfl, trivial⟩⟩

/-- A state with an operation outstanding meets the invariant and makes a step. -/
theorem test_witness_StepKeepsTheInvariant :
    Inv (tBusy .allAttr [tE2] [tE2, tE10] [] [.agent (.remove 0 0 tE2 false)]) ∧
    (tNext (step (tBusy .allAttr [tE2] [tE2, tE10] [] [.agent (.remove 0 0 tE2 false)]))).isSome = true := by
  refine ⟨⟨by decide, fun i p hp => ?_, by decide⟩, by decide⟩
  match i with
  | 0 => cases hp; exact (tPeSound ..).1
  | 1 => cases hp; exact (tPeSound ..).2
  | _ + 2 => cases hp

theorem test_witness_StepKeepsTrackOfStaleEntries :
    Tracked (tBusy .allAttr [tE2] [tE2, tE10] [] [.agent (.fill 0 tE3)]) ∧
    NoRefill (tBusy .allAttr [tE2] [tE2, tE10] [] [.agent (.fill 0 tE3)]) ∧
    (tNext (step (tBusy .allAttr [tE2] [tE2, tE10] [] [.agent (.fill 0 tE3)]))).isSome = true := by
  refine ⟨by unfold Tracked; decide, ?_, by decide⟩
  rintro p e rest h
  cases h
  decide

theorem test_witness_PromiseAfterCompletion :
    Tracked (tBusy .allAttr [] [tE10] [tA1 true] [.agent (.complete 0)]) ∧
    (tBusy .allAttr [] [tE10] [tA1 true] [.agent (.complete 0)]).pending[0]? = some (tOp .allAttr []) ∧
    (tNext (step (tBusy .allAttr [] [tE10] [tA1 true] [.agent (.complete 0)]))).isSome = true := by
  refine ⟨by unfold Tracked; decide, by decide, by decide⟩

theorem test_witness_EveryOperationCanComplete :
    (tBusy .allAttr [tE2] [tE2, tE10] [tA1 true] []).pending[0]? = some (tOp .allAttr [tE2]) ∧
    ∀ a ∈ (tBusy .allAttr [tE2] [tE2, tE10] [tA1 true] []).accesses, ¬Blocks (tOp .allAttr [tE2]) a := by
  refine ⟨by decide, fun a ha hb => ?_⟩
  simp only [tBusy, List.mem_singleton] at ha
  subst ha
  cases hb.1

theorem test_witness_NoStepWritesRegistersOrControls : (tNext (step tStart)).isSome = true := by decide

theorem test_witness_ExceptionRecordIsNeverCleared :
    let s := { tStart with pes := tOther, agenda := [] }
    (tNext (step s)).isSome = true ∧ (s.pes[1]?).map Pe.exc = some (some (.undefined 1 7#64 .vale2is)) := by decide

/-- An instruction, a completion and a removal, each with an operation pending. -/
theorem test_witness_RequiredSetsAreFixedAtIssue :
    (tNext (step (tBusy .allAttr [tE2] [tE2] [] []))).map (fun s => s.pending.length) = some 2 ∧
    (tNext (step (tBusy .allAttr [] [] [] [.agent (.complete 0)]))).map State.pending = some [] ∧
    (tNext (step (tBusy .allAttr [tE2] [tE2] [] [.agent (.remove 0 0 tE2 false)]))).map State.pending =
      some [tOp .allAttr []] := by decide

theorem test_witness_TlbsChangeOnlyByAgents :
    (tNext (step (tBusy .allAttr [tE2] [tE2] [] [.agent (.remove 0 0 tE2 true)]))).map (fun s => tlbOf s 0) = some [] ∧
    (tNext (step (tBusy .allAttr [tE2] [] [] [.agent (.fill 0 tE3)]))).map (fun s => tlbOf s 0) = some [tE3] := by decide

/-- Pages 0x10 to 0x1F are one block, at its two ends; the row above speaks of the block after it.  Page 0x30 is in no row. -/
theorem test_witness_GranuleIsWhatTheTableSays :
    let other : GranuleRow := ⟨.el20, ⟨0⟩, 0x20#44, 0x2F#44, .kb64⟩
    let row : GranuleRow := ⟨.el20, ⟨0⟩, 0x10#44, 0x1F#44, .kb16⟩
    (∀ row' ∈ [other], ∀ va', SameBlock 0x10#44 va' → ¬RowIsAbout row' .el20 ⟨0⟩ va') ∧
    (∀ va', SameBlock 0x10#44 va' → RowIsAbout row .el20 ⟨0⟩ va') ∧ SameBlock 0x10#44 0x1F#44 ∧
    (∀ row' ∈ [other, row], ∀ va', SameBlock 0x30#44 va' → ¬RowIsAbout row' .el20 ⟨0⟩ va') ∧
    [0x10#44, 0x1F#44, 0x20#44, 0x30#44].map (granuleUsed ⟨[other, row], .kb4⟩ .el20 ⟨0⟩) = [.kb16, .kb16, .kb64, .kb4] := by
  simp only [List.mem_cons, List.not_mem_nil, or_false, forall_eq_or_imp, forall_eq, SameBlock, RowIsAbout,
    BitVec.toNat_ofNat, true_and]
  refine ⟨fun _ _ => ?_, fun _ _ => ?_, ?_, ⟨fun _ _ => ?_, fun _ _ => ?_⟩, by decide⟩ <;> omega

/-- From reset, with a word placed, the first step runs it (log entry 34): at EL3 without EL2 it is Undefined (R105). -/
theorem test_reset_runs :
    (tNext (step (State.reset.withFetchWord 32 0xD54C83A2))).map (fun s => s.pes.map Pe.exc) =
      some [some (.undefined 0 0#64 .vale2is), none] := by decide

end Sys2Proof.Machine
end

section
/-! The rules of 10_state about what the instructions read and write of the control bits. -/

namespace Sys2Proof.Machine

/-- What an execution that answers a next state does to the PEs: a record or an advanced `pc` on the executing PE
(40 R74, R77, 60_exceptions R104, R106). -/
theorem exec_next_pes {i : Instr} {s s' : State} (h : exec i s = .next s') :
    (∃ r, s'.pes = s.pes.modify s.cur fun p => { p with exc := some r }) ∨
      s'.pes = s.pes.modify s.cur fun p => { p with pc := p.pc + 4#64 } := by
  rw [exec_eq_tlbip] at h
  obtain ⟨p, -, -, -, ⟨-, rfl⟩ | ⟨-, rfl⟩ | ⟨r, lo, hi, -, -, -, -, -, rfl⟩⟩ := tlbip_next h
  · exact .inl ⟨_, rfl⟩
  · exact .inl ⟨_, rfl⟩
  · exact .inr rfl

/-- What a change of one PE keeps of every PE, it keeps of the PE at each place. -/
theorem getElem?_modify_keeps {α : Type} (g : Pe → α) {f : Pe → Pe} {l : List Pe} {n q : Nat} {p p' : Pe}
    (h : l[q]? = some p) (h' : (l.modify n f)[q]? = some p') (hf : ∀ p, g (f p) = g p) : g p' = g p := by
  rw [List.getElem?_modify, h] at h'
  split at h' <;> cases h'
  · exact hf p
  · rfl

/-- Neither instruction writes `HCR_EL2` of any PE (10_state R20, R21). -/
theorem exec_next_hcrEl2 {i : Instr} {s s' : State} {q : PEId} {p p' : Pe} (h : exec i s = .next s')
    (hp : s.pes[q]? = some p) (hp' : s'.pes[q]? = some p') : p'.hcrEl2 = p.hcrEl2 := by
  obtain ⟨r, hs⟩ | hs := exec_next_pes h <;> rw [hs] at hp'
  · exact getElem?_modify_keeps Pe.hcrEl2 hp hp' fun _ => rfl
  · exact getElem?_modify_keeps Pe.hcrEl2 hp hp' fun _ => rfl

/-- At EL1, given the features, the access checks answer by EL2Enabled and `HCR_EL2.NV` (60_exceptions R110). -/
theorem accessCheck_el1 {v : Variant} {c : Config} {p : Pe} (hel : p.pstate.el = .el1) (hd : c.featD128 = true)
    (hx : v = .vale2isnxs → c.featXS = true) :
    accessCheck v c p = if el2Enabled c p = true ∧ p.hcrEl2.nv = 1#1 then .trapped else .undefined := by
  have hxs : ¬(v = .vale2isnxs ∧ c.featXS = false) := fun ⟨hv, hf⟩ => by simp [hx hv] at hf
  simp [accessCheck, hel, hd, hxs]

/-- Except at EL1 with EL2 enabled, the access checks do not read `HCR_EL2.NV`: only the arm of EL1 names it, behind
EL2Enabled (10_state R21). -/
theorem accessCheck_setNv {v : Variant} {c : Config} {p : Pe} (nv : BitVec 1)
    (h : ¬(p.pstate.el = .el1 ∧ el2Enabled c p = true)) :
    accessCheck v c { p with hcrEl2 := { p.hcrEl2 with nv := nv } } = accessCheck v c p := by
  have hen : el2Enabled c { p with hcrEl2 := { p.hcrEl2 with nv := nv } } = el2Enabled c p := rfl
  have hreg : regimeSelected { p with hcrEl2 := { p.hcrEl2 with nv := nv } } = regimeSelected p := rfl
  unfold accessCheck
  rw [hen, hreg]
  cases hel : p.pstate.el with
  | el0 | el2 | el3 => rfl
  | el1 => simp [show el2Enabled c p = false by simpa [hel] using h]

/-- Settles O17: the access checks read the bit in their EL1 arm only, and an execution writes only a record or a `pc`. -/
theorem nvIsReadAtEl1Only : Obligations.NvIsReadAtEl1Only := by
  unfold Obligations.NvIsReadAtEl1Only
  refine ⟨fun v c p nv h => accessCheck_setNv nv h, fun v c p hel hen hd hx => ?_, fun i s s' q p p' h hp hp' => ?_⟩
  · simp [accessCheck_el1 hel hd hx, hen]
  · rw [exec_next_hcrEl2 h hp hp']

end Sys2Proof.Machine
end

section
/-! The rules of 30_encoding: the points that select the variants, and the operand that an execution issues. -/

namespace Sys2Proof

/-- Each variant's point selects it: the two points differ (30_encoding R53, R54). -/
theorem SysPoint.variant?_point (v : Variant) : v.point.variant? = some v := by cases v <;> rfl

/-- A variant is selected by its own point and by no other. -/
theorem SysPoint.variant?_eq_some_iff {p : SysPoint} {v : Variant} : p.variant? = some v ↔ p = v.point :=
  ⟨SysPoint.variant?_eq_some, fun h => h ▸ SysPoint.variant?_point v⟩

/-- Settles O1: a variant is selected by its own point only, and points are equal field by field. -/
theorem variantsOccupyTheirPoints : Obligations.VariantsOccupyTheirPoints := by
  unfold Obligations.VariantsOccupyTheirPoints
  rintro ⟨op0, op1, crn, crm, op2⟩
  simp only [SysPoint.variant?_eq_some_iff, Variant.point, SysPoint.mk.injEq, and_self]

end Sys2Proof

namespace Sys2Proof.Machine

/-- The TTL field is in the low register (30_encoding R61). -/
theorem ttlOf_op128Of (lo hi : Word64) : ttlOf (op128Of lo hi) = lo.extractLsb' 44 4 := by
  apply BitVec.eq_of_toNat_eq
  simp only [ttlOf, BitVec.extractLsb'_toNat, op128Of_toNat, Nat.shiftRight_eq_div_pow]
  omega

/-- The ASID field is in the low register (30_encoding R62). -/
theorem asidOf_op128Of (lo hi : Word64) : asidOf (op128Of lo hi) = lo.extractLsb' 48 16 := by
  apply BitVec.eq_of_toNat_eq
  simp only [asidOf, BitVec.extractLsb'_toNat, op128Of_toNat, Nat.shiftRight_eq_div_pow]
  omega

/-- A bit field is 0 exactly when the number it stands for is. -/
theorem extractLsb'_eq_zero_iff {w : Nat} (x : BitVec w) (start len : Nat) :
    x.extractLsb' start len = 0#len ↔ x.toNat / 2 ^ start % 2 ^ len = 0 := by
  rw [← BitVec.toNat_inj, BitVec.extractLsb'_toNat, Nat.shiftRight_eq_div_pow, BitVec.toNat_ofNat, Nat.zero_mod]

/-- The reserved bits of the operand, register by register (30_encoding R65, R66). -/
theorem res0OK_op128Of {c : Config} {lo hi : Word64} :
    res0OK c (op128Of lo hi) = true ↔ ReservedBitsZero c lo hi := by
  have hlo := lo.isLt
  have hhi := hi.isLt
  have hhigh : (op128Of lo hi).extractLsb' 108 20 = 0#20 ↔ hi.toNat / 2 ^ 44 = 0 := by
    rw [extractLsb'_eq_zero_iff, op128Of_toNat]; omega
  have hlow : (op128Of lo hi).extractLsb' 0 44 = 0#44 ↔ lo.toNat % 2 ^ 44 = 0 := by
    rw [extractLsb'_eq_zero_iff, op128Of_toNat]; omega
  have httl : ttlOf (op128Of lo hi) = 0#4 ↔ lo.toNat / 2 ^ 44 % 16 = 0 := by
    rw [ttlOf_op128Of, extractLsb'_eq_zero_iff]; norm_num
  simp only [res0OK, Bool.and_eq_true, Bool.or_eq_true, beq_iff_eq, hhigh, hlow, httl, and_assoc, ReservedBitsZero]
  cases c.featTTL <;> simp

/-- The ASID field has a meaning under the regime that `HCR_EL2.E2H` selects (41 R94). -/
theorem asidUnstated_regimeSelected {c : Config} {p : Pe} {lo hi : Word64} :
    asidUnstated c (regimeSelected p) (op128Of lo hi) = false ↔ AsidHasMeaning c p lo := by
  have hlo := lo.isLt
  have hbyte : (asidOf (op128Of lo hi)).extractLsb' 8 8 = 0#8 ↔ lo.toNat / 2 ^ 56 = 0 := by
    rw [extractLsb'_eq_zero_iff, asidOf_op128Of, BitVec.extractLsb'_toNat, Nat.shiftRight_eq_div_pow]; omega
  have hreg : regimeSelected p = .el20 ↔ p.hcrEl2.e2h = 1#1 := by
    unfold regimeSelected; split <;> simp_all
  simp [asidUnstated, AsidHasMeaning, hbyte, hreg, imp_iff_not_or, or_assoc]

/-- The outcome Issued (40 R74, R77): a PE that can execute and may issue, with an operand that has a meaning, issues the
record of the call and advances its `pc`. -/
theorem exec_issues {i : Instr} {s : State} {p : Pe} {lo hi : Word64} (hcan : CanExecute s p)
    (hop : OperandIs p i.t i.t2 lo hi) (hmay : MayIssue i.variant s.cfg p) (hres : ReservedBitsZero s.cfg lo hi)
    (hasid : AsidHasMeaning s.cfg p lo) :
    exec i s = .next (issuedState s p
      (newOp s p (argsOf i.variant s.cfg p (regimeSelected p) (op128Of lo hi)))) := by
  obtain ⟨hlo, hhi⟩ := hop
  have hissue := (issueStep_next (v := i.variant) (s := s)).mpr
    ⟨lo, hi, hlo, hhi, res0OK_op128Of.mpr hres, asidUnstated_regimeSelected.mpr hasid, rfl⟩
  rw [exec_eq_tlbip, tlbip_of_canExecute hcan, inFile_of_readX hlo, inFile_of_readX hhi,
    accessCheck_permit.mpr ⟨hmay, rfl⟩, ← issue_advancePc_eq hcan.1]
  exact hissue

/-- The values that R63 calls reserved, and without FEAT_LPA2 the two that name a level only with it, give no hint
(30_encoding R64, R67). -/
theorem ttlHint_reserved {c : Config} {ttl : BitVec 4}
    (h : ttl = 0b1000#4 ∨ ttl = 0b1100#4 ∨ (c.featLPA2 = false ∧ (ttl = 0b0100#4 ∨ ttl = 0b1001#4))) :
    ttlHint c ttl = none := by
  obtain rfl | rfl | ⟨hlpa, rfl | rfl⟩ := h
  · simp [ttlHint]
  · simp [ttlHint]
  · simp [ttlHint, hlpa]
  · simp [ttlHint, hlpa]

/-- Without a hint every entry agrees (41 R95). -/
theorem agrees_of_ttlHint_none {c : Config} {a : TlbipArgs} (h : ttlHint c (ttlOf a.op128) = none) (e : Entry) :
    agrees c a e = true := by simp [agrees, h]

/-- Settles O31: a reserved value gives no hint, and the operand is issued like any other whose reserved bits are 0. -/
theorem reservedTtlValuesAreNotErrors : Obligations.ReservedTtlValuesAreNotErrors := by
  unfold Obligations.ReservedTtlValuesAreNotErrors
  intro i s p lo hi hcan hop hmay hres hasid httl
  have hnone := ttlHint_reserved httl
  refine ⟨hnone, _, exec_issues hcan hop hmay hres hasid, agrees_of_ttlHint_none ?_⟩
  simpa only [newOp_args, argsOf, ttlOf_op128Of] using hnone

end Sys2Proof.Machine
end

section
/-! The rules of 60_exceptions: the causes of the outcome Undefined. -/

namespace Sys2Proof.Machine

/-- Without a feature that the variant needs the access checks answer at once (60_exceptions R105, R110). -/
theorem accessCheck_featureMissing {v : Variant} {c : Config} {p : Pe}
    (h : c.featD128 = false ∨ (v = .vale2isnxs ∧ c.featXS = false)) : accessCheck v c p = .undefined := by
  unfold accessCheck
  rcases h with hd | hxs
  · simp [hd]
  · simp [hxs]

/-- With the features implemented, the Exception level decides: EL0 never may, EL1 is not trapped, and EL3 needs EL2
enabled (60_exceptions R105, R117). -/
theorem accessCheck_undefined_of_features {v : Variant} {c : Config} {p : Pe} (hd : c.featD128 = true)
    (hx : v = .vale2isnxs → c.featXS = true) :
    accessCheck v c p = .undefined ↔ p.pstate.el = .el0 ∨
      (p.pstate.el = .el1 ∧ ¬(el2Enabled c p = true ∧ p.hcrEl2.nv = 1#1)) ∨
      (p.pstate.el = .el3 ∧ el2Enabled c p = false) := by
  cases hel : p.pstate.el with
  | el1 => simp [accessCheck_el1 hel hd hx]
  | el0 | el2 | el3 =>
    have hxs : ¬(v = .vale2isnxs ∧ c.featXS = false) := by simpa using hx
    simp [accessCheck, hel, hd, hxs]

/-- Settles O15: a missing feature is a cause by itself, and with the features the Exception level decides. -/
theorem causesOfUndefined : Obligations.CausesOfUndefined := by
  unfold Obligations.CausesOfUndefined
  intro v c p
  rw [← or_assoc]
  by_cases hmissing : c.featD128 = false ∨ (v = .vale2isnxs ∧ c.featXS = false)
  · exact iff_of_true (accessCheck_featureMissing hmissing) (.inl hmissing)
  · rw [or_iff_right hmissing]
    obtain ⟨hd, hx⟩ := not_or.mp hmissing
    exact accessCheck_undefined_of_features (by simpa using hd) (by simpa using hx)

end Sys2Proof.Machine
end

section
/-! The rules of 70_reset_and_hazards: which operand bits a match reads, which entries an issued operation must remove, and
which accesses hold up its completion. -/

namespace Sys2Proof.Machine

/-- Words that agree on a run of bits agree on every field inside it. -/
theorem extractLsb'_eq_of_within {w start len : Nat} {x y : BitVec w}
    (h : x.extractLsb' start len = y.extractLsb' start len) {start' len' : Nat} (hlow : start ≤ start')
    (hhigh : start' + len' ≤ start + len) : x.extractLsb' start' len' = y.extractLsb' start' len' := by
  obtain ⟨d, rfl⟩ := Nat.exists_eq_add_of_le hlow
  ext k hk
  have hbit := congrArg (BitVec.getLsbD · (d + k)) h
  have hd : d + k < len := by omega
  simpa [hk, hd, Nat.add_assoc] using hbit

/-- Pages of one block are covered together: the bits below the granule play no part (41 R92). -/
theorem coversMasked_eq_of_block {g : Granule} {e : Entry} {va va' : PageNum}
    (h : va.toNat / 2 ^ granuleBits g = va'.toNat / 2 ^ granuleBits g) : coversMasked g e va = coversMasked g e va' := by
  rw [Bool.eq_iff_iff, coversMasked_iff, coversMasked_iff, h]

/-- A 4KB block is the page itself (41 R92). -/
theorem coversMasked_kb4 (e : Entry) (va : PageNum) : coversMasked .kb4 e va = covers e va := by
  rw [Bool.eq_iff_iff, coversMasked_iff]
  simp only [granuleBits, pow_zero, Nat.div_one, BitVec.toNat_inj, forall_eq]

/-- A match reads of the operand its TTL bits, its block, and its ASID field through `AsidOK` (41 R88 to R94). -/
theorem matchEntry_setOp128 {c : Config} {g : Granule} {a : TlbipArgs} {op128 : Word128} {e : Entry}
    (httl : ttlOf op128 = ttlOf a.op128)
    (hva : (vaOf op128).toNat / 2 ^ granuleBits g = (vaOf a.op128).toNat / 2 ^ granuleBits g)
    (hasid : asidOK c { a with op128 := op128 } e = asidOK c a e) :
    matchEntry c g { a with op128 := op128 } e = matchEntry c g a e := by
  simp only [matchEntry, descOK, ttlGranuleBits, regimeVA, httl, coversMasked_eq_of_block hva, hasid]

/-- Settles O34: the TTL and ASID fields lie below bit 64, and the match reads of the address its block only. -/
theorem lowVaBitsAreIgnored : Obligations.LowVaBitsAreIgnored := by
  unfold Obligations.LowVaBitsAreIgnored
  refine ⟨fun c g a op128 tlb hlow hva => ?_, coversMasked_kb4⟩
  have httl : ttlOf op128 = ttlOf a.op128 := extractLsb'_eq_of_within hlow (by decide) (by decide)
  have hasid : asidOf op128 = asidOf a.op128 := extractLsb'_eq_of_within hlow (by decide) (by decide)
  refine required_congr (fun e _ => matchEntry_setOp128 httl hva ?_) fun e _ => ?_
  · simp only [asidOK, hasid]
  · simp only [agrees, httl]

/-- With 16-bit ASIDs, in the EL2&0 regime, a non-global entry is required only under its own ASID (41 R94). -/
theorem asid_of_mem_required {c : Config} {g : Granule} {a : TlbipArgs} {tlb : List Entry} {e : Entry}
    (hbits : c.asidBits = .b16) (hreg : a.regime = .el20) (hglobal : e.isGlobal = false)
    (he : e ∈ required c g a tlb) : e.asid = asidOf a.op128 := by
  obtain ⟨-, hmatch, -⟩ := mem_required he
  obtain ⟨-, -, -, -, -, -, hasid⟩ := matchEntry_iff.mp hmatch
  simpa [asidOK, asidMatches, hbits, hreg, hglobal] using hasid

/-- A global entry matches whatever the ASID field holds (41 R94). -/
theorem asidOK_of_isGlobal {c : Config} {a : TlbipArgs} {e : Entry} (h : e.isGlobal = true) : asidOK c a e = true := by
  unfold asidOK
  cases a.regime <;> simp [h]

/-- Settles O35: a required non-global entry carries the field as its tag, a global one is matched without the field, and
with 16-bit ASIDs every field has a meaning. -/
theorem upperAsidByteMissesEightBitContexts : Obligations.UpperAsidByteMissesEightBitContexts := by
  unfold Obligations.UpperAsidByteMissesEightBitContexts
  intro c g a tlb e hbits hreg hfield
  refine ⟨fun hglobal htag he => ?_, fun hglobal op128 hhigh hlow => ?_, ?_⟩
  · rw [asid_of_mem_required hbits hreg hglobal he] at htag
    exact hfield htag
  · have httl : ttlOf op128 = ttlOf a.op128 := extractLsb'_eq_of_within hlow (by decide) (by decide)
    have hva : vaOf op128 = vaOf a.op128 := extractLsb'_eq_of_within hhigh (by decide) (by decide)
    exact matchEntry_setOp128 httl (by rw [hva]) (by rw [asidOK_of_isGlobal hglobal, asidOK_of_isGlobal hglobal])
  · rintro i s p lo hi rfl hcan hop hmay hres
    exact ⟨_, exec_issues hcan hop hmay hres fun h8 => by rw [hbits] at h8; cases h8⟩

/-- An operation that an execution adds to `pending` is the record of the call (40 R74, R77). -/
theorem exec_next_pending_append {i : Instr} {s s' : State} {op : Op} (h : exec i s = .next s')
    (hpending : s'.pending = s.pending ++ [op]) :
    ∃ p lo hi, CanExecute s p ∧
      op = newOp s p (argsOf i.variant s.cfg p (regimeSelected p) (op128Of lo hi)) := by
  rw [exec_eq_tlbip] at h
  obtain ⟨p, hcan, -, -, ⟨-, rfl⟩ | ⟨-, rfl⟩ | ⟨r, lo, hi, hcheck, -, -, -, -, rfl⟩⟩ := tlbip_next h
  · simp [State.raiseUndefined] at hpending
  · simp [State.raiseTrap] at hpending
  · obtain ⟨-, rfl⟩ := accessCheck_permit.mp hcheck
    have hlast := List.append_cancel_left hpending
    exact ⟨p, lo, hi, hcan, (List.singleton_inj.mp hlast).symm⟩

/-- A target of a new operation requires the required set of its PE's TLB (41 R87). -/
theorem req_of_mem_newOp_targets {s : State} {p : Pe} {a : TlbipArgs} {t : Target} (h : t ∈ (newOp s p a).targets) :
    t.req = required s.cfg (granuleUsed p.granules a.regime a.security (vaOf a.op128)) a (tlbOf s t.pe) := by
  obtain ⟨q, -, rfl⟩ := List.mem_map.mp h
  rfl

/-- Settles O36: a required entry is a cached entry that matches, and a match is of the regime that the call names. -/
theorem requiredEntriesAreOfTheSelectedRegime : Obligations.RequiredEntriesAreOfTheSelectedRegime := by
  unfold Obligations.RequiredEntriesAreOfTheSelectedRegime
  intro i s s' p op hexec hp hpending t ht e he
  obtain ⟨q, lo, hi, hcan, rfl⟩ := exec_next_pending_append hexec hpending
  obtain rfl : q = p := Option.some.inj (hcan.1.symm.trans hp)
  rw [req_of_mem_newOp_targets ht] at he
  obtain ⟨hcached, hmatch, -⟩ := mem_required he
  obtain ⟨-, -, hregime, -⟩ := matchEntry_iff.mp hmatch
  exact ⟨hregime, hcached⟩

/-- Accesses that an operation does not wait for do not change whether it may complete (20_memory R43, R44). -/
theorem canComplete_append {accesses more : List MemAccess} {op : Op}
    (hmore : ∀ a ∈ more, waitsFor op.args.attr a = false) (h : canComplete accesses op = true) :
    canComplete (accesses ++ more) op = true := by
  rw [canComplete_iff] at h ⊢
  intro t ht
  obtain ⟨htodo, hacc⟩ := h t ht
  refine ⟨htodo, fun a ha huses hwaits => ?_⟩
  rcases List.mem_append.mp ha with hold | hnew
  · exact hacc a hold huses hwaits
  · simp [hmore a hnew] at hwaits

/-- With `TLBI_ExcludeXS` an operation does not wait for an access with XS attribute 1 (20_memory R44). -/
theorem waitsFor_excludeXS_of_xs {a : MemAccess} (h : a.xs = 1#1) : waitsFor .excludeXS a = false := by
  simp [waitsFor, h]

/-- Settles O39: the completion condition passes over the accesses with XS attribute 1 for `TLBI_ExcludeXS`, and over none
for `TLBI_AllAttr`. -/
theorem nxsDoesNotWaitForXsAccesses : Obligations.NxsDoesNotWaitForXsAccesses := by
  unfold Obligations.NxsDoesNotWaitForXsAccesses
  intro s s' k op hop hstep
  obtain ⟨op', hop', hcan, rfl⟩ := completeStep_next.mp hstep
  obtain rfl : op = op' := Option.some.inj (hop.symm.trans hop')
  refine ⟨fun hattr more hxs => ?_, fun hattr a ha t ht hpe e huse hreq => ?_⟩
  · have hmore : ∀ a ∈ more, waitsFor op.args.attr a = false := fun a ha => by
      rw [hattr, waitsFor_excludeXS_of_xs (hxs a ha)]
    exact completeStep_next.mpr ⟨op, hop, canComplete_append hmore hcan, rfl⟩
  · obtain ⟨-, hacc⟩ := canComplete_iff.mp hcan t ht
    exact hacc a ha (usesRequired_iff.mpr ⟨hpe, e, huse, hreq⟩) (by rw [hattr]; rfl)

end Sys2Proof.Machine
end

section
/-! The rules of 30_encoding section 1: which words spell which instruction. -/

namespace Sys2Proof

/-- An instruction is its variant and its two register numbers (00_scope R6). -/
@[simp] theorem Instr.make_fields (i : Instr) : Instr.make i.variant i.t i.t2 = i := by cases i <;> rfl

@[simp] theorem Instr.make_variant (v : Variant) (t t2 : RegNum) : (Instr.make v t t2).variant = v := by
  cases v <;> rfl

@[simp] theorem Instr.make_t (v : Variant) (t t2 : RegNum) : (Instr.make v t t2).t = t := by cases v <;> rfl

@[simp] theorem Instr.make_t2 (v : Variant) (t t2 : RegNum) : (Instr.make v t t2).t2 = t2 := by cases v <;> rfl

/-- The forms a word holds, as numbers (30_encoding R57). -/
theorem Instr.encodable_iff {i : Instr} :
    i.encodable = true ↔ i.t.toNat % 2 = 0 ∧ i.t.toNat ≤ 28 ∧ i.t2.toNat = i.t.toNat + 1 := by
  have ht := i.t.isLt
  have heven : i.t.getLsbD 0 = false ↔ i.t.toNat % 2 = 0 := by
    rw [BitVec.getLsbD, Nat.testBit_zero, decide_eq_false_iff_not]; omega
  have hpair : i.t.toNat ≤ 28 → (i.t2 = i.t + 1#5 ↔ i.t2.toNat = i.t.toNat + 1) := fun h => by
    rw [← BitVec.toNat_inj, BitVec.toNat_add_of_lt (by simp; omega)]; simp
  simp only [Instr.encodable, Bool.and_eq_true, beq_iff_eq, decide_eq_true_eq, heven, and_assoc]
  exact and_congr_right fun _ => and_congr_right hpair

/-- Every form a word holds names registers of the file. -/
theorem Instr.wellFormed_of_encodable {i : Instr} (h : i.encodable = true) : i.wellFormed = true := by
  obtain ⟨-, ht, ht2⟩ := Instr.encodable_iff.mp h
  have hfile : ∀ r : RegNum, r.toNat < 31 → RegNum.inFile r = true := fun r hr => by
    simp only [RegNum.inFile, bne_iff_ne, ne_eq]
    rintro rfl
    simp at hr
  simp [Instr.wellFormed, hfile i.t (by omega), hfile i.t2 (by omega)]

/-- A register field makes a pair exactly in the forms a word holds (30_encoding R57). -/
theorem decodePair_ok {v : Variant} {rt : RegNum} {i : Instr} :
    decodePair v rt = .ok i ↔ i.variant = v ∧ i.t = rt ∧ i.encodable = true := by
  have hlt := rt.isLt
  have h31 : rt = 31#5 ↔ rt.toNat = 31 := by rw [← BitVec.toNat_inj]; simp
  have h30 : rt = 30#5 ↔ rt.toNat = 30 := by rw [← BitVec.toNat_inj]; simp
  unfold decodePair
  constructor
  · intro h
    split_ifs at h with h1 h2 h3
    cases h
    have hle : rt.toNat ≤ 28 ∨ rt.toNat = 29 := by
      have := mt h31.mpr h1
      have := mt h30.mpr h2
      omega
    have hne : rt.toNat ≠ 29 := fun h29 => h3 (by simp [BitVec.getLsbD, h29])
    exact ⟨Instr.make_variant _ _ _, Instr.make_t _ _ _, by
      simp only [Instr.encodable, Instr.make_t, Instr.make_t2, h3, hle.resolve_right hne, BEq.rfl, decide_true,
        Bool.and_self]⟩
  · rintro ⟨rfl, rfl, h⟩
    obtain ⟨⟨heven, hle⟩, hpair⟩ : (i.t.getLsbD 0 = false ∧ i.t.toNat ≤ 28) ∧ i.t2 = i.t + 1#5 := by
      simpa [Instr.encodable] using h
    rw [if_neg (mt h31.mp (by omega)), if_neg (mt h30.mp (by omega)), heven, ← hpair, Instr.make_fields]
    rfl

/-- The fields of a variant's word (30_encoding R56). -/
theorem encodeWord_layout (v : Variant) (rt : RegNum) :
    (encodeWord v rt).extractLsb' 22 10 = syspPrefix ∧ (encodeWord v rt).getLsbD 21 = false ∧
      pointOfWord (encodeWord v rt) = v.point ∧ rtOfWord (encodeWord v rt) = rt := by
  revert rt
  cases v <;> decide

/-- A variant's word decodes as its register field does. -/
theorem decodeWord_encodeWord (v : Variant) (rt : RegNum) : decodeWord (encodeWord v rt) = decodePair v rt := by
  obtain ⟨hpre, hbit, hpoint, hrt⟩ := encodeWord_layout v rt
  simp only [decodeWord, hpre, hbit, hpoint, hrt, SysPoint.variant?_point, and_self, if_true]

/-- A word that is no variant's word is rejected by its own name (30_encoding R68). -/
theorem decodeWord_of_ne {w : Word32} (h : ∀ v, w ≠ encodeWord v (rtOfWord w)) :
    decodeWord w = .reject (.notThisInstruction w) := by
  unfold decodeWord
  split
  · next hc =>
    split
    · next v hv => exact absurd (eq_encodeWord hc.1 hc.2 (SysPoint.variant?_eq_some hv)) (h v)
    · rfl
  · rfl

theorem encode_eq_some {i : Instr} {w : Word32} :
    encode i = some w ↔ i.encodable = true ∧ encodeWord i.variant i.t = w := by
  unfold encode
  split <;> simp_all

/-- Decoding and encoding a word are inverse to each other (30_encoding section 1). -/
theorem decodeWord_ok_iff {w : Word32} {i : Instr} : decodeWord w = .ok i ↔ encode i = some w := by
  rw [encode_eq_some]
  constructor
  · intro h
    obtain ⟨v, hw, hpair⟩ := decodeWord_ok h
    obtain ⟨rfl, ht, henc⟩ := decodePair_ok.mp hpair
    exact ⟨henc, by rw [ht, ← hw]⟩
  · rintro ⟨henc, rfl⟩
    rw [decodeWord_encodeWord]
    exact decodePair_ok.mpr ⟨rfl, rfl, henc⟩

/-- A word's own bytes decode to what the word does, whatever follows them (30_encoding R72). -/
theorem decode_bytesOfWord (w : Word32) (rest : List Byte) : decode (bytesOfWord w ++ rest) = (decodeWord w, rest) := by
  simp [bytesOfWord, decode]

/-- Settles O2: an encodable instruction has a word, whose bytes decode as the word does. -/
theorem decodeOfEncodeIsIdentity : Obligations.DecodeOfEncodeIsIdentity := by
  unfold Obligations.DecodeOfEncodeIsIdentity
  intro i rest henc
  have hword := encode_eq_some.mpr ⟨henc, rfl⟩
  exact ⟨_, hword, by rw [decode_bytesOfWord, decodeWord_ok_iff.mpr hword]⟩

/-- Settles O3: the words that decode are the words of the encodable instructions. -/
theorem encodeOfDecodeIsIdentity : Obligations.EncodeOfDecodeIsIdentity := by
  unfold Obligations.EncodeOfDecodeIsIdentity
  intro w i h
  have hword := decodeWord_ok_iff.mp h
  have henc := (encode_eq_some.mp hword).1
  exact ⟨hword, henc, Instr.wellFormed_of_encodable henc⟩

/-- A word is its bits under the mask and its register field. -/
theorem eq_of_mask_of_rt {w w' : Word32} (hmask : w &&& 0xFFFFFFE0#32 = w' &&& 0xFFFFFFE0#32)
    (hrt : rtOfWord w = rtOfWord w') : w = w' := by
  have hlow : w &&& 0x1F#32 = w' &&& 0x1F#32 := by
    have := congrArg BitVec.toNat hrt
    simp only [rtOfWord, BitVec.extractLsb'_toNat, Nat.shiftRight_zero] at this
    apply BitVec.eq_of_toNat_eq
    rw [BitVec.toNat_and, BitVec.toNat_and]
    have h31 : (0x1F#32).toNat = 2 ^ 5 - 1 := rfl
    rw [h31, Nat.and_two_pow_sub_one_eq_mod, Nat.and_two_pow_sub_one_eq_mod, this]
  have hsplit : ∀ u : Word32, u = (u &&& 0xFFFFFFE0#32) ||| (u &&& 0x1F#32) := fun u => by
    rw [← BitVec.and_or_distrib_left]; exact (BitVec.and_allOnes).symm
  rw [hsplit w, hmask, hlow, ← hsplit w']

/-- The match value of a variant is its word with register field 0 (30_encoding R58). -/
theorem mask_eq_iff {w : Word32} {v : Variant} :
    w &&& 0xFFFFFFE0#32 = encodeWord v 0#5 ↔ w = encodeWord v (rtOfWord w) := by
  have hmask : ∀ rt : RegNum, encodeWord v rt &&& 0xFFFFFFE0#32 = encodeWord v 0#5 := by cases v <;> decide
  constructor
  · intro h
    obtain ⟨-, -, -, hrt⟩ := encodeWord_layout v (rtOfWord w)
    exact eq_of_mask_of_rt (by rw [h, hmask]) hrt.symm
  · intro h
    rw [h, hmask]

/-- The two match values (30_encoding R58). -/
theorem encodeWord_zero : encodeWord .vale2is 0#5 = 0xD54C83A0#32 ∧ encodeWord .vale2isnxs 0#5 = 0xD54C93A0#32 := by
  decide

theorem rtOfWord_toNat (w : Word32) : (rtOfWord w).toNat = w.toNat % 32 := by
  simp [rtOfWord]

/-- The word of an instruction, by mask, match value and register field (30_encoding R57, R58). -/
theorem encode_eq_some_iff_mask {i : Instr} {w : Word32} :
    encode i = some w ↔ w &&& 0xFFFFFFE0#32 = encodeWord i.variant 0#5 ∧ i.t.toNat = w.toNat % 32 ∧
      i.t.toNat % 2 = 0 ∧ i.t.toNat ≤ 28 ∧ i.t2.toNat = i.t.toNat + 1 := by
  rw [encode_eq_some, mask_eq_iff, Instr.encodable_iff, ← rtOfWord_toNat, BitVec.toNat_inj]
  constructor
  · rintro ⟨henc, rfl⟩
    obtain ⟨-, -, -, hrt⟩ := encodeWord_layout i.variant i.t
    exact ⟨by rw [hrt], hrt.symm, henc⟩
  · rintro ⟨hw, hrt, henc⟩
    exact ⟨henc, by rw [hrt, ← hw]⟩

/-- Settles O4: the words that decode to an instruction are its word, told by mask, match value and register field. -/
theorem matchAndMaskSelectTheWords : Obligations.MatchAndMaskSelectTheWords := by
  unfold Obligations.MatchAndMaskSelectTheWords
  intro w t t2
  rw [← encodeWord_zero.1, ← encodeWord_zero.2]
  exact ⟨decodeWord_ok_iff.trans encode_eq_some_iff_mask, decodeWord_ok_iff.trans encode_eq_some_iff_mask⟩

/-- A word that a variant's match value selects decodes as its register field does. -/
theorem decodeWord_of_mask {w : Word32} {v : Variant} (h : w &&& 0xFFFFFFE0#32 = encodeWord v 0#5) :
    decodeWord w = decodePair v (rtOfWord w) := by
  rw [mask_eq_iff] at h
  conv_lhs => rw [h]
  exact decodeWord_encodeWord _ _

/-- The register fields that make no pair, each with its reason (30_encoding R57). -/
theorem decodePair_reject (v : Variant) (rt : RegNum) :
    (rt.toNat = 31 → decodePair v rt = .reject .rt31) ∧ (rt.toNat = 30 → decodePair v rt = .reject .rt30) ∧
      (rt.toNat % 2 = 1 → rt.toNat ≠ 31 → decodePair v rt = .reject (.oddRt rt)) := by
  have h31 : rt = 31#5 ↔ rt.toNat = 31 := by rw [← BitVec.toNat_inj]; simp
  have h30 : rt = 30#5 ↔ rt.toNat = 30 := by rw [← BitVec.toNat_inj]; simp
  have hodd : rt.getLsbD 0 = true ↔ rt.toNat % 2 = 1 := by rw [BitVec.getLsbD, Nat.testBit_zero, decide_eq_true_eq]
  refine ⟨fun h => ?_, fun h => ?_, fun h hne => ?_⟩ <;> unfold decodePair
  · rw [if_pos (h31.mpr h)]
  · rw [if_neg (mt h31.mp (by omega)), if_pos (h30.mpr h)]
  · rw [if_neg (mt h31.mp hne), if_neg (mt h30.mp (by omega)), if_pos (hodd.mpr h)]

/-- A register field is never rejected as another word. -/
theorem decodePair_ne_notThisInstruction (v : Variant) (rt : RegNum) (w : Word32) :
    decodePair v rt ≠ .reject (.notThisInstruction w) := by
  unfold decodePair
  split_ifs <;> simp

/-- Settles O5: a word is either selected by a match value, and then its register field decides, or rejected as a
whole. -/
theorem otherWordsAreRejectedByName : Obligations.OtherWordsAreRejectedByName := by
  unfold Obligations.OtherWordsAreRejectedByName
  intro w
  rw [← encodeWord_zero.1, ← encodeWord_zero.2]
  refine ⟨⟨fun ⟨hne, hnexs⟩ => decodeWord_of_ne fun v hw => ?_, fun h => ?_⟩, fun hmask => ?_⟩
  · cases v with
    | vale2is => exact hne (mask_eq_iff.mpr hw)
    | vale2isnxs => exact hnexs (mask_eq_iff.mpr hw)
  · have hno : ∀ v, w &&& 0xFFFFFFE0#32 ≠ encodeWord v 0#5 := fun v hv =>
      decodePair_ne_notThisInstruction v _ w ((decodeWord_of_mask hv).symm.trans h)
    exact ⟨hno .vale2is, hno .vale2isnxs⟩
  · obtain ⟨v, hv⟩ : ∃ v, w &&& 0xFFFFFFE0#32 = encodeWord v 0#5 :=
      hmask.elim (fun h => ⟨.vale2is, h⟩) fun h => ⟨.vale2isnxs, h⟩
    obtain ⟨h31, h30, hodd⟩ := decodePair_reject v (rtOfWord w)
    rw [rtOfWord_toNat] at h31 h30 hodd
    rw [decodeWord_of_mask hv]
    refine ⟨h31, h30, fun h hne => ?_⟩
    have hrt : rtOfWord w = BitVec.ofNat 5 w.toNat :=
      BitVec.eq_of_toNat_eq (by rw [rtOfWord_toNat, BitVec.toNat_ofNat])
    rw [hodd (by omega) hne, hrt]

/-- Settles O6: each word is decoded as it stands. -/
theorem vectorWordsDecode : Obligations.VectorWordsDecode := by
  unfold Obligations.VectorWordsDecode
  decide

end Sys2Proof

namespace Sys2Proof.Machine

/-- An operation name stands for the variant that it spells, without regard to case (30_encoding R71). -/
theorem variantNamed_eq_some {op : List Char} {v : Variant} :
    variantNamed op = some v ↔ op.map Char.toUpper = asmName v := by
  have hne : asmName .vale2is ≠ asmName .vale2isnxs := by decide
  unfold variantNamed
  cases v <;> split_ifs <;> simp_all

/-- When a line stands for an instruction (30_encoding R69 to R71). -/
theorem assemble_ok {l : AsmLine} {i : Instr} :
    assemble l = .ok i ↔ l.variant? = some i.variant ∧ l.regs = some (i.t, i.t2) ∧ i.wellFormed = true := by
  unfold assemble
  constructor
  · intro h
    split at h
    · cases h
    · next v hv =>
      split at h
      · cases h
      · next t t2 hr =>
        split at h
        · next hwf => cases h; simpa [hv, hr] using hwf
        · cases h
  · rintro ⟨hv, hr, hwf⟩
    simp [hv, hr, hwf]

/-- Settles O7: either spelling names the variant and both registers. -/
theorem bothSpellingsAssemble : Obligations.BothSpellingsAssemble := by
  unfold Obligations.BothSpellingsAssemble
  intro i hwf
  have hname : (asmName i.variant).map Char.toUpper = asmName i.variant := by cases i.variant <;> decide
  have hpoint : SysPoint.mk 0b01#2 i.variant.point.op1 i.variant.point.crn i.variant.point.crm i.variant.point.op2 =
      i.variant.point := by cases i.variant <;> rfl
  exact ⟨assemble_ok.mpr ⟨variantNamed_eq_some.mpr hname, rfl, hwf⟩,
    assemble_ok.mpr ⟨SysPoint.variant?_eq_some_iff.mpr hpoint, rfl, hwf⟩⟩

/-- Settles O8: a line that assembles has its registers, and its name or its point is the variant's. -/
theorem assembledLinesNameTheirInstruction : Obligations.AssembledLinesNameTheirInstruction := by
  unfold Obligations.AssembledLinesNameTheirInstruction
  refine ⟨fun l hnone i h => ?_, fun l i h => ?_⟩
  · obtain ⟨-, hregs, -⟩ := assemble_ok.mp h
    rw [hnone] at hregs
    cases hregs
  · obtain ⟨hv, hregs, hwf⟩ := assemble_ok.mp h
    refine ⟨hwf, hregs, ?_⟩
    cases l with
    | tlbip op regs => exact variantNamed_eq_some.mp hv
    | sysp op1 cn cm op2 regs =>
      have hpoint := SysPoint.variant?_eq_some hv
      cases i <;> simp_all [Instr.variant, Variant.point]

end Sys2Proof.Machine
end

section
/-! The outcomes of the two instructions (40, 41, 60_exceptions), said once each way, and the statements about them. -/

namespace Sys2Proof.Machine

@[simp] theorem andThen_of_fault {α β : Type} {r : Fault} {f : α → Result β} :
    andThen (.fault r) f = .fault r := rfl

@[simp] theorem andThen_of_refused {α β : Type} {r : Refusal} {f : α → Result β} :
    andThen (.refused r) f = .refused r := rfl

/-- The record that an execution by PE `p` issues for the operand `hi:lo` (40 R74, R77). -/
def issuedOpOf (v : Variant) (s : State) (p : Pe) (lo hi : Word64) : Op :=
  newOp s p (argsOf v s.cfg p (regimeSelected p) (op128Of lo hi))

/-- Everything an execution that answers a next state can have done, in the words of the statements
(60_exceptions R110). -/
theorem exec_next_outcome {i : Instr} {s s' : State} (h : exec i s = .next s') :
    ∃ p, CanExecute s p ∧ i.wellFormed = true ∧
      ((accessCheck i.variant s.cfg p = .undefined ∧ s' = recordedState s p (.undefined s.cur p.pc i.variant)) ∨
       (accessCheck i.variant s.cfg p = .trapped ∧
          s' = recordedState s p (.trapped s.cur p.pc i.variant i.t i.t2 .el2 0x14)) ∨
       (MayIssue i.variant s.cfg p ∧ ∃ lo hi, OperandIs p i.t i.t2 lo hi ∧ ReservedBitsZero s.cfg lo hi ∧
          AsidHasMeaning s.cfg p lo ∧ s' = issuedState s p (issuedOpOf i.variant s p lo hi))) := by
  rw [exec_eq_tlbip] at h
  obtain ⟨p, hcan, ht, ht2, hout⟩ := tlbip_next h
  refine ⟨p, hcan, by simp [Instr.wellFormed, ht, ht2], ?_⟩
  obtain ⟨hck, rfl⟩ | ⟨hck, rfl⟩ | ⟨r, lo, hi, hck, hlo, hhi, hres, hasid, rfl⟩ := hout
  · exact .inl ⟨hck, raiseUndefined_eq hcan.1⟩
  · exact .inr (.inl ⟨hck, raiseTrap_eq hcan.1⟩)
  · obtain ⟨hmay, rfl⟩ := accessCheck_permit.mp hck
    exact .inr (.inr ⟨hmay, lo, hi, ⟨hlo, hhi⟩, res0OK_op128Of.mp hres, asidUnstated_regimeSelected.mp hasid,
      issue_advancePc_eq hcan.1⟩)

/-- The PE of an outcome is the executing PE. -/
theorem CanExecute.unique {s : State} {p q : Pe} (hp : CanExecute s p) (hq : CanExecute s q) : q = p :=
  Option.some.inj (hq.1.symm.trans hp.1)

/-- A well-formed instruction names registers of the file (10_state R16). -/
theorem inFile_of_wellFormed {i : Instr} (h : i.wellFormed = true) :
    (RegNum.inFile i.t && RegNum.inFile i.t2) = true := h

section Outcomes
variable {i : Instr} {s : State} {p : Pe}

/-- The outcome Undefined (60_exceptions R104). -/
theorem exec_undefined (hcan : CanExecute s p) (hwf : i.wellFormed = true)
    (h : accessCheck i.variant s.cfg p = .undefined) :
    exec i s = .next (recordedState s p (.undefined s.cur p.pc i.variant)) := by
  rw [exec_eq_tlbip, tlbip_of_canExecute hcan, if_neg (ne_false_of_eq_true (inFile_of_wellFormed hwf)), h,
    ← raiseUndefined_eq hcan.1]

/-- The outcome Trapped (60_exceptions R106). -/
theorem exec_trapped (hcan : CanExecute s p) (hwf : i.wellFormed = true)
    (h : accessCheck i.variant s.cfg p = .trapped) :
    exec i s = .next (recordedState s p (.trapped s.cur p.pc i.variant i.t i.t2 .el2 0x14)) := by
  rw [exec_eq_tlbip, tlbip_of_canExecute hcan, if_neg (ne_false_of_eq_true (inFile_of_wellFormed hwf)), h,
    ← raiseTrap_eq hcan.1]

/-- Where the access checks permit the call, the operand decides (40 R79). -/
theorem exec_permitted (hcan : CanExecute s p) (hwf : i.wellFormed = true) {r : Regime}
    (h : accessCheck i.variant s.cfg p = .permit r) : exec i s = issueStep i.variant i.t i.t2 s p r := by
  rw [exec_eq_tlbip, tlbip_of_canExecute hcan, if_neg (ne_false_of_eq_true (inFile_of_wellFormed hwf)), h]

/-- The outcome Issued with its record named (40 R74, R77). -/
theorem exec_issued {lo hi : Word64} (hcan : CanExecute s p) (hop : OperandIs p i.t i.t2 lo hi)
    (hmay : MayIssue i.variant s.cfg p) (hres : ReservedBitsZero s.cfg lo hi) (hasid : AsidHasMeaning s.cfg p lo) :
    exec i s = .next (issuedState s p (issuedOpOf i.variant s p lo hi)) := exec_issues hcan hop hmay hres hasid

/-- Two exceptional outcomes of a PE are the same only with the same record. -/
theorem recordedState_inj (hcan : CanExecute s p) {r r' : ExcRecord} (h : recordedState s p r = recordedState s p r') :
    r = r' := by
  have hlt := (List.getElem?_eq_some_iff.mp hcan.1).1
  have hpe := congrArg (fun s => (s.pes[s.cur]?).map Pe.exc) h
  simpa [hlt] using hpe

/-- An exceptional outcome issues nothing, an Issued outcome does. -/
theorem recordedState_ne_issuedState {r : ExcRecord} {op : Op} : recordedState s p r ≠ issuedState s p op := fun h => by
  simpa using congrArg State.pending h

/-- An exceptional outcome is one of the two that the access checks decide. -/
theorem exec_next_recordedState (hcan : CanExecute s p) {r : ExcRecord} (h : exec i s = .next (recordedState s p r)) :
    i.wellFormed = true ∧
      ((accessCheck i.variant s.cfg p = .undefined ∧ r = .undefined s.cur p.pc i.variant) ∨
       (accessCheck i.variant s.cfg p = .trapped ∧ r = .trapped s.cur p.pc i.variant i.t i.t2 .el2 0x14)) := by
  obtain ⟨q, hq, hwf, hout⟩ := exec_next_outcome h
  obtain rfl := hcan.unique hq
  obtain ⟨hck, hs⟩ | ⟨hck, hs⟩ | ⟨-, lo, hi, -, -, -, hs⟩ := hout
  · exact ⟨hwf, .inl ⟨hck, recordedState_inj hcan hs⟩⟩
  · exact ⟨hwf, .inr ⟨hck, recordedState_inj hcan hs⟩⟩
  · exact absurd hs recordedState_ne_issuedState

end Outcomes

/-- Settles O18: the record Undefined is left exactly where the access checks answer so. -/
theorem undefinedRecordsAndChangesNothingElse : Obligations.UndefinedRecordsAndChangesNothingElse := by
  unfold Obligations.UndefinedRecordsAndChangesNothingElse
  intro i s p hcan hwf
  rw [← causesOfUndefined i.variant s.cfg p]
  refine ⟨exec_undefined hcan hwf, fun h => ?_⟩
  obtain ⟨-, ⟨hck, -⟩ | ⟨-, hr⟩⟩ := exec_next_recordedState hcan h
  · exact hck
  · cases hr

/-- Settles O19: the record Trapped is left exactly where the access checks answer so. -/
theorem trapRecordsAndChangesNothingElse : Obligations.TrapRecordsAndChangesNothingElse := by
  unfold Obligations.TrapRecordsAndChangesNothingElse
  intro i s p hcan hwf
  rw [← accessCheck_trapped]
  refine ⟨exec_trapped hcan hwf, fun h => ?_⟩
  obtain ⟨-, ⟨-, hr⟩ | ⟨hck, -⟩⟩ := exec_next_recordedState hcan h
  · cases hr
  · exact hck

/-- The PEs of a domain (10_state R32). -/
theorem mem_isDomain {s : State} {p q : PEId} :
    q ∈ isDomain s p ↔ q < s.pes.length ∧ (q = p ∨ (p, q) ∈ s.cfg.ish) := by simp [isDomain]

/-- A new operation has everything still to do (41 R87). -/
theorem todo_of_mem_newOp_targets {s : State} {p : Pe} {a : TlbipArgs} {t : Target} (h : t ∈ (newOp s p a).targets) :
    t.todo = t.req := by
  obtain ⟨q, -, rfl⟩ := List.mem_map.mp h
  rfl

/-- The record of a call is the one that 41 R85 describes. -/
theorem issuedOpOf_spec (v : Variant) (s : State) (p : Pe) (lo hi : Word64) :
    IssuedOp s p (attrOf v) lo hi (issuedOpOf v s p lo hi) := by
  unfold IssuedOp issuedOpOf
  rw [newOp_domain]
  exact ⟨rfl, rfl, isDomain_nodup s s.cur, fun _ => mem_isDomain,
    fun t ht => ⟨todo_of_mem_newOp_targets ht, req_of_mem_newOp_targets ht⟩⟩

/-- Settles O13: the instruction issues the record of the call. -/
theorem vale2isIssues : Obligations.Vale2isIssues := by
  unfold Obligations.Vale2isIssues
  intro s p t t2 lo hi hcan hop hmay hres hasid
  exact ⟨_, exec_issued (i := .tlbipVale2is t t2) hcan hop hmay hres hasid, issuedOpOf_spec .vale2is s p lo hi⟩

/-- Settles O14: the same for the other variant, whose call passes `TLBI_ExcludeXS`. -/
theorem vale2isnxsIssues : Obligations.Vale2isnxsIssues := by
  unfold Obligations.Vale2isnxsIssues
  intro s p t t2 lo hi hcan hop hmay hres hasid
  exact ⟨_, exec_issued (i := .tlbipVale2isnxs t t2) hcan hop hmay hres hasid, issuedOpOf_spec .vale2isnxs s p lo hi⟩

/-- Settles O16: EL0 and EL1 never call, EL2 always does, and EL3 does with EL2 enabled. -/
theorem privilegePerLevel : Obligations.PrivilegePerLevel := by
  unfold Obligations.PrivilegePerLevel
  intro v c p hd hx
  have hundef := accessCheck_undefined_of_features (p := p) hd hx
  refine ⟨fun hel => hundef.mpr (.inl hel), fun hel => accessCheck_el1 hel hd hx,
    fun hel => accessCheck_permit.mpr ⟨⟨hd, hx, .inl hel⟩, rfl⟩, fun hel => ?_⟩
  split
  · next hen => exact accessCheck_permit.mpr ⟨⟨hd, hx, .inr ⟨hel, hen⟩⟩, rfl⟩
  · next hen => exact hundef.mpr (.inr (.inr ⟨hel, by simpa using hen⟩))

/-- Settles O20: a register outside the file is refused before the access checks, an operand after them, and of the two
tests of the operand the reserved bits come first. -/
theorem refusedOperands : Obligations.RefusedOperands := by
  unfold Obligations.RefusedOperands
  intro i s p hcan
  refine ⟨fun h31 => ?_, fun lo hi hop hmay => ?_⟩
  · have hfile : (RegNum.inFile i.t && RegNum.inFile i.t2) = false := by
      obtain h | h := h31 <;> simp [RegNum.inFile, h]
    rw [exec_eq_tlbip, tlbip_of_canExecute hcan, if_pos hfile]
  · have hwf : i.wellFormed = true := by simp [Instr.wellFormed, inFile_of_readX hop.1, inFile_of_readX hop.2]
    have hread : readOperand p i.t i.t2 = .next (op128Of lo hi) := readOperand_next.mpr ⟨lo, hi, hop.1, hop.2, rfl⟩
    rw [exec_permitted hcan hwf (accessCheck_permit.mpr ⟨hmay, rfl⟩), issueStep, hread, andThen_of_next]
    refine ⟨fun hres => ?_, fun hres hasid => ?_⟩
    · rw [← res0OK_op128Of, Bool.not_eq_true] at hres
      rw [if_pos hres, op128Of]
    · rw [← asidUnstated_regimeSelected (hi := hi), Bool.not_eq_false] at hasid
      rw [res0OK_op128Of.mpr hres, if_neg (by simp), if_pos hasid, asidOf_op128Of]

section ExecutingPe
variable {s : State} {p : Pe}

/-- A PE that does not exist cannot execute. -/
theorem executingPe_noSuchPe (h : s.pes[s.cur]? = none) : executingPe s = .refused (.noSuchPe s.cur) := by
  simp [executingPe, h]

/-- A PE with a record cannot execute (92 D3, D4). -/
theorem executingPe_exceptionRecorded (h : s.pes[s.cur]? = some p) {r : ExcRecord} (hr : p.exc = some r) :
    executingPe s = .fault (.exceptionRecorded r) := by simp [executingPe, h, hr]

/-- A PE at a misaligned `pc` cannot execute (10_state R17). -/
theorem executingPe_pcMisaligned (h : s.pes[s.cur]? = some p) (hr : p.exc = none) (hpc : p.pc.toNat % 4 ≠ 0) :
    executingPe s = .refused (.pcMisaligned p.pc) := by
  simp [executingPe, h, hr, extract_low_two, hpc]

/-- A PE at the last word of the address space cannot execute (10_state R17). -/
theorem executingPe_pcAtTop (h : s.pes[s.cur]? = some p) (hr : p.exc = none) (hpc : p.pc.toNat = 2 ^ 64 - 4) :
    executingPe s = .refused .pcAtTop := by
  have hal : topPc.extractLsb' 0 2 = 0#2 := by decide
  simp [executingPe, h, hr, hal, (eq_topPc _).mpr hpc]

/-- Where the executing PE cannot execute, both instructions stop as it does. -/
theorem exec_of_executingPe_fault {r : Fault} (i : Instr) (h : executingPe s = .fault r) : exec i s = .fault r := by
  rw [exec_eq_tlbip, tlbip, h, andThen_of_fault]

theorem exec_of_executingPe_refused {r : Refusal} (i : Instr) (h : executingPe s = .refused r) :
    exec i s = .refused r := by
  rw [exec_eq_tlbip, tlbip, h, andThen_of_refused]

end ExecutingPe

/-- Settles O21: neither instruction gets past the test of the executing PE. -/
theorem stoppedPeExecutesNothing : Obligations.StoppedPeExecutesNothing := by
  unfold Obligations.StoppedPeExecutesNothing
  intro i s p hp
  exact ⟨fun r hr => exec_of_executingPe_fault i (executingPe_exceptionRecorded hp hr),
    fun hr hpc => exec_of_executingPe_refused i (executingPe_pcMisaligned hp hr hpc),
    fun hr hpc => exec_of_executingPe_refused i (executingPe_pcAtTop hp hr hpc)⟩

/-- The one PE that an execution changes, and how: an advanced `pc`, or a record (10_state R17, 60_exceptions R104,
R106). -/
theorem exec_next_pe {i : Instr} {s s' : State} (h : exec i s = .next s') :
    ∃ p p', CanExecute s p ∧ s'.pes = s.pes.set s.cur p' ∧
      (p' = { p with pc := p.pc + 4#64 } ∨ ∃ r, p' = { p with exc := some r }) := by
  obtain ⟨p, hcan, -, ⟨-, rfl⟩ | ⟨-, rfl⟩ | ⟨-, lo, hi, -, -, -, rfl⟩⟩ := exec_next_outcome h
  · exact ⟨p, _, hcan, rfl, .inr ⟨_, rfl⟩⟩
  · exact ⟨p, _, hcan, rfl, .inr ⟨_, rfl⟩⟩
  · exact ⟨p, _, hcan, rfl, .inl rfl⟩

/-- What an execution leaves of the machine, whatever its outcome (40 R84). -/
theorem exec_next_frame {i : Instr} {s s' : State} (h : exec i s = .next s') :
    s'.cfg = s.cfg ∧ s'.mem = s.mem ∧ s'.cur = s.cur ∧ s'.accesses = s.accesses ∧ s'.agenda = s.agenda := by
  obtain ⟨p, -, -, ⟨-, rfl⟩ | ⟨-, rfl⟩ | ⟨-, lo, hi, -, -, -, rfl⟩⟩ := exec_next_outcome h <;>
    exact ⟨rfl, rfl, rfl, rfl, rfl⟩

/-- What an execution does to `pending`: nothing, or the record of a call joins it (40 R74, R77). -/
theorem exec_next_pending {i : Instr} {s s' : State} (h : exec i s = .next s') :
    s'.pending = s.pending ∨
      ∃ p lo hi, CanExecute s p ∧ s'.pending = s.pending ++ [issuedOpOf i.variant s p lo hi] := by
  obtain ⟨p, hcan, -, ⟨-, rfl⟩ | ⟨-, rfl⟩ | ⟨-, lo, hi, -, -, -, rfl⟩⟩ := exec_next_outcome h
  · exact .inl rfl
  · exact .inl rfl
  · exact .inr ⟨p, lo, hi, hcan, rfl⟩

/-- Settles O22: only the executing PE and the end of `pending` change. -/
theorem frameOfBothInstructions : Obligations.FrameOfBothInstructions := by
  unfold Obligations.FrameOfBothInstructions
  intro i s s' h
  obtain ⟨hcfg, hmem, hcur, hacc, hag⟩ := exec_next_frame h
  obtain ⟨p, p', hcan, hpes, hp'⟩ := exec_next_pe h
  have hlt := (List.getElem?_eq_some_iff.mp hcan.1).1
  refine ⟨hcfg, hcur, hacc, hag, fun a => by rw [hmem], ?_, by rw [hpes, List.length_set], fun q hq => ?_,
    p, p', hcan.1, by rw [hpes, List.getElem?_set_self hlt], ?_⟩
  · exact (exec_next_pending h).imp_right fun ⟨_, _, _, _, hp⟩ => ⟨_, hp⟩
  · rw [hpes, List.getElem?_set_ne hq.symm]
  · obtain rfl | ⟨r, rfl⟩ := hp'
    · exact ⟨rfl, rfl, rfl, rfl, rfl, rfl, rfl, .inl ⟨rfl, hcan.2.1⟩⟩
    · exact ⟨rfl, rfl, rfl, rfl, rfl, rfl, rfl, .inr ⟨rfl, rfl⟩⟩

/-- With FEAT_XS the access checks do not tell the variants apart (40 R75, R78). -/
theorem accessCheck_variant {c : Config} (p : Pe) (hxs : c.featXS = true) (v v' : Variant) :
    accessCheck v c p = accessCheck v' c p := by
  simp [accessCheck, hxs]

/-- The calls of the two variants differ in the attribute, which no required set depends on (20_memory R45). -/
theorem issuedOpOf_vale2isnxs (s : State) (p : Pe) (lo hi : Word64) :
    issuedOpOf .vale2isnxs s p lo hi =
      { issuedOpOf .vale2is s p lo hi with
        args := { (issuedOpOf .vale2is s p lo hi).args with attr := .excludeXS } } := rfl

/-- Where one variant answers a next state, both do, and the two answers differ in the variant only. -/
theorem exec_both_variants {i : Instr} {s s' : State} (hxs : s.cfg.featXS = true) (h : exec i s = .next s') :
    ∃ s1 s2, exec (.tlbipVale2is i.t i.t2) s = .next s1 ∧ exec (.tlbipVale2isnxs i.t i.t2) s = .next s2 ∧
      SameButVariant s s1 s2 := by
  obtain ⟨p, hcan, hwf, ⟨hck, -⟩ | ⟨hck, -⟩ | ⟨hmay, lo, hi, hop, hres, hasid, -⟩⟩ := exec_next_outcome h
  · have hck' := fun v => (accessCheck_variant p hxs v i.variant).trans hck
    exact ⟨_, _, exec_undefined hcan hwf (hck' _), exec_undefined hcan hwf (hck' _),
      .inr ⟨p, _, hcan.1, rfl, rfl, rfl⟩⟩
  · have hck' := fun v => (accessCheck_variant p hxs v i.variant).trans hck
    exact ⟨_, _, exec_trapped hcan hwf (hck' _), exec_trapped hcan hwf (hck' _),
      .inr ⟨p, _, hcan.1, rfl, rfl, rfl⟩⟩
  · have hmay' : ∀ v, MayIssue v s.cfg p := fun v => ⟨hmay.1, fun _ => hxs, hmay.2.2⟩
    refine ⟨_, _, exec_issued hcan hop (hmay' _) hres hasid, exec_issued hcan hop (hmay' _) hres hasid,
      .inl ⟨_, rfl, rfl, ?_⟩⟩
    exact congrArg (issuedState s p) (issuedOpOf_vale2isnxs s p lo hi)

/-- Settles O23: with FEAT_XS both variants take the same path and pass calls that differ in the attribute. -/
theorem variantsDifferInTheAttributeOnly : Obligations.VariantsDifferInTheAttributeOnly := by
  unfold Obligations.VariantsDifferInTheAttributeOnly
  intro s t t2 hxs
  refine ⟨fun s' h => ?_, fun s'' h => ?_⟩
  · obtain ⟨s1, s2, h1, h2, hsame⟩ := exec_both_variants hxs h
    obtain rfl : s1 = s' := Host.Outcome.next.inj (h1.symm.trans h)
    exact ⟨s2, h2, hsame⟩
  · obtain ⟨s1, s2, h1, h2, hsame⟩ := exec_both_variants hxs h
    obtain rfl : s2 = s'' := Host.Outcome.next.inj (h2.symm.trans h)
    exact ⟨s1, h1, hsame⟩

/-- Settles O24: the two halves of the operand are the same word, and the reserved bits take up the high half's upper
part and the low half's lower part. -/
theorem sameRegisterTwiceAdmitsOnlyZero : Obligations.SameRegisterTwiceAdmitsOnlyZero := by
  unfold Obligations.SameRegisterTwiceAdmitsOnlyZero
  intro i s p w hcan _ hop hmay
  constructor
  · rintro ⟨s', h⟩
    have hck := accessCheck_permit.mpr ⟨hmay, rfl⟩
    obtain ⟨q, hq, -, hout⟩ := exec_next_outcome h
    obtain rfl := hcan.unique hq
    obtain ⟨hno, -⟩ | ⟨hno, -⟩ | ⟨-, lo, hi, ⟨hlo, hhi⟩, ⟨hhigh, hlow, -⟩, -⟩ := hout
    · rw [hck] at hno; cases hno
    · rw [hck] at hno; cases hno
    · obtain rfl : lo = w := Option.some.inj (hlo.symm.trans hop.1)
      obtain rfl : hi = lo := Option.some.inj (hhi.symm.trans hop.2)
      exact BitVec.eq_of_toNat_eq (by simp only [BitVec.toNat_ofNat]; omega)
  · rintro rfl
    exact ⟨_, exec_issued hcan hop hmay ⟨by simp, by simp, fun _ => by simp⟩ fun _ _ => by simp⟩

/-- Settles O25: the access checks and the record read the control fields and the `pc` only. -/
theorem exceptionalOutcomesReadNoRegister : Obligations.ExceptionalOutcomesReadNoRegister := by
  unfold Obligations.ExceptionalOutcomesReadNoRegister
  intro i s p x r hcan h
  have hlt := (List.getElem?_eq_some_iff.mp hcan.1).1
  have hcan' : CanExecute { s with pes := s.pes.set s.cur { p with x := x } } { p with x := x } :=
    ⟨List.getElem?_set_self hlt, hcan.2⟩
  have hck : accessCheck i.variant s.cfg { p with x := x } = accessCheck i.variant s.cfg p :=
    accessCheck_congr rfl rfl rfl
  obtain ⟨hwf, ⟨hund, rfl⟩ | ⟨htrap, rfl⟩⟩ := exec_next_recordedState hcan h
  · exact exec_undefined hcan' hwf (hck.trans hund)
  · exact exec_trapped hcan' hwf (hck.trans htrap)

/-- The TLBs as their PEs hold them. -/
theorem tlbOf_eq_map (s : State) (q : PEId) : tlbOf s q = ((s.pes[q]?).map Pe.tlb).getD [] := by
  unfold tlbOf
  cases s.pes[q]? <;> rfl

/-- A new operation reads of the other PEs their number and their TLBs (41 R97). -/
theorem newOp_setPes {s : State} {pes : List Pe} (hlen : pes.length = s.pes.length)
    (htlb : ∀ q : PEId, (pes[q]?).map Pe.tlb = (s.pes[q]?).map Pe.tlb) (p : Pe) (a : TlbipArgs) :
    newOp { s with pes := pes } p a = newOp s p a := by
  have htlbOf : tlbOf { s with pes := pes } = tlbOf s := by
    funext q
    rw [tlbOf_eq_map, tlbOf_eq_map, ← htlb q]
  have hdom : isDomain { s with pes := pes } = isDomain s := by
    funext q
    simp only [isDomain, hlen]
  have htarget : targetAt { s with pes := pes } = targetAt s := by
    funext g a q
    simp only [targetAt, htlbOf]
  simp only [newOp, hdom, htarget]

/-- Settles O26: each outcome is decided by the executing PE, and the record by the TLBs besides. -/
theorem otherPesPlayNoPart : Obligations.OtherPesPlayNoPart := by
  unfold Obligations.OtherPesPlayNoPart
  intro i s s' pes hlen hcur htlb h
  obtain ⟨p, hcan, hwf, hout⟩ := exec_next_outcome h
  have hlt := (List.getElem?_eq_some_iff.mp hcan.1).1
  have hcan' : CanExecute { s with pes := pes } p := ⟨hcur.trans hcan.1, hcan.2⟩
  have hpes : ∀ p' : Pe, (pes.set s.cur p')[s.cur]? = (s.pes.set s.cur p')[s.cur]? := fun p' => by
    rw [List.getElem?_set_self hlt, List.getElem?_set_self (hlen ▸ hlt)]
  obtain ⟨hck, rfl⟩ | ⟨hck, rfl⟩ | ⟨hmay, lo, hi, hop, hres, hasid, rfl⟩ := hout
  · exact ⟨_, exec_undefined hcan' hwf hck, rfl, hpes _, fun q hq => List.getElem?_set_ne hq.symm⟩
  · exact ⟨_, exec_trapped hcan' hwf hck, rfl, hpes _, fun q hq => List.getElem?_set_ne hq.symm⟩
  · refine ⟨_, exec_issued hcan' hop hmay hres hasid, ?_, hpes _, fun q hq => List.getElem?_set_ne hq.symm⟩
    simp only [issuedOpOf, newOp_setPes hlen htlb]

/-- Settles O27: the definition gives the three constraints, and no execution writes what it reads. -/
theorem el2EnabledMeetsItsConstraints : Obligations.El2EnabledMeetsItsConstraints := by
  unfold Obligations.El2EnabledMeetsItsConstraints
  refine ⟨fun c p h => by simp [el2Enabled, h], fun c p h hel => by simp [el2Enabled, h, hel],
    fun c p h hel => by simp [el2Enabled, h, hel], fun i s s' p p' h hp hp' => ?_⟩
  obtain ⟨hcfg, -⟩ := exec_next_frame h
  obtain ⟨q, q', hcan, hpes, hq'⟩ := exec_next_pe h
  obtain rfl : q = p := Option.some.inj (hcan.1.symm.trans hp)
  rw [hpes, List.getElem?_set_self (List.getElem?_eq_some_iff.mp hp).1] at hp'
  cases hp'
  rw [hcfg]
  obtain rfl | ⟨r, rfl⟩ := hq' <;> rfl

end Sys2Proof.Machine
end

section
/-! What every step of the machine keeps: the invariant, and track of the entries still to be removed. -/

namespace Sys2Proof.Machine

/-! ### Sound PEs -/

/-- `pc + 4` is aligned where `pc` is (10_state R17). -/
theorem pc_add_four_aligned {pc : Word64} (h : pc.toNat % 4 = 0) : (pc + 4#64).toNat % 4 = 0 := by
  rw [BitVec.toNat_add]
  simp only [BitVec.toNat_ofNat]
  omega

/-- A PE with an advanced `pc` is sound: it held no record. -/
theorem PeSound.advance {c : Config} {n : PEId} {p : Pe} (h : PeSound c n p) (hexc : p.exc = none) :
    PeSound c n { p with pc := p.pc + 4#64 } := by
  obtain ⟨hpc, hnodup, hd128, -⟩ := h
  exact ⟨pc_add_four_aligned hpc, hnodup, hd128, by simp [ExcSound, hexc]⟩

/-- A PE that takes an exceptional outcome is sound when the record says what its state says. -/
theorem PeSound.record {c : Config} {n : PEId} {p : Pe} {r : ExcRecord} (h : PeSound c n p)
    (hr : ExcSound c n { p with exc := some r }) : PeSound c n { p with exc := some r } :=
  ⟨h.1, h.2.1, h.2.2.1, hr⟩

/-- Another TLB leaves the record sound: no record speaks of the TLB. -/
theorem PeSound.setTlb {c : Config} {n : PEId} {p : Pe} {tlb : List Entry} (h : PeSound c n p) (hnodup : tlb.Nodup)
    (hd128 : ∀ e ∈ tlb, e.descBits = .d128 → c.featD128 = true) : PeSound c n { p with tlb := tlb } :=
  ⟨h.1, hnodup, hd128, h.2.2.2⟩

/-- Every PE stays sound when the one that changes does. -/
theorem peSound_set {c : Config} {l : List Pe} {n : Nat} {p' : Pe} (h : ∀ i p, l[i]? = some p → PeSound c i p)
    (hp' : PeSound c n p') : ∀ i p, (l.set n p')[i]? = some p → PeSound c i p := by
  intro i p hi
  rw [List.getElem?_set] at hi
  split at hi
  · next heq =>
    split at hi
    · cases hi; exact heq ▸ hp'
    · cases hi
  · exact h i p hi

/-- The same for a change at one place of the list. -/
theorem peSound_modify {c : Config} {l : List Pe} {n : Nat} {f : Pe → Pe} (h : ∀ i p, l[i]? = some p → PeSound c i p)
    (hf : ∀ p, l[n]? = some p → PeSound c n (f p)) : ∀ i p, (l.modify n f)[i]? = some p → PeSound c i p := by
  cases hn : l[n]? with
  | none => rwa [List.modify_eq_self (List.getElem?_eq_none_iff.mp hn)]
  | some q => rw [modify_eq_set hn]; exact peSound_set h (hf q hn)

/-! ### Sound operations -/

/-- A matching entry that agrees with the hint is in scope, whatever the granule in use (41 R88 to R95). -/
theorem entryInScope_of_mem_required {c : Config} {g : Granule} {a : TlbipArgs} {tlb : List Entry} {e : Entry}
    (h : e ∈ required c g a tlb) : EntryInScope c a e := by
  obtain ⟨-, hmatch, hagrees⟩ := mem_required h
  obtain ⟨hstage, hdesc, hreg, hsec, hcov, hfinal, hasid⟩ := matchEntry_iff.mp hmatch
  exact ⟨hstage, hfinal, hreg, hsec, coversMasked_covers hcov, hdesc, hasid, hagrees⟩

/-- The record of a call by a PE that is there is sound (41 R85, R97). -/
theorem newOp_sound {s : State} {p : Pe} {a : TlbipArgs} (hp : s.pes[s.cur]? = some p) :
    OpSound s.cfg s.pes.length (newOp s p a) := by
  refine ⟨?_, ?_, fun q hq => ?_, fun t ht => ⟨fun e he => ?_, fun e he => ?_⟩⟩
  · rw [newOp_domain]
    exact self_mem_isDomain (List.getElem?_eq_some_iff.mp hp).1
  · rw [newOp_domain]
    exact isDomain_nodup s s.cur
  · rw [newOp_domain] at hq
    exact isDomain_lt hq
  · rwa [todo_of_mem_newOp_targets ht] at he
  · rw [req_of_mem_newOp_targets ht] at he
    exact entryInScope_of_mem_required he

/-- Clearing an entry keeps an operation sound: a `todo` only shrinks. -/
theorem OpSound.clear {c : Config} {n : Nat} {op : Op} (h : OpSound c n op) (p : PEId) (e : Entry) :
    OpSound c n (op.clear p e) := by
  obtain ⟨hissuer, hnodup, hlt, htargets⟩ := h
  refine ⟨by rwa [Op.clear_domain], by rwa [Op.clear_domain], by rwa [Op.clear_domain], fun t ht => ?_⟩
  obtain ⟨t', ht', rfl⟩ := List.mem_map.mp ht
  obtain ⟨htodo, hreq⟩ := htargets t' ht'
  exact ⟨fun e' he' => by simpa using htodo e' (Target.mem_clear_todo.mp he').1, by simpa using hreq⟩

/-! ### The invariant -/

/-- The invariant does not speak of who moves next. -/
theorem inv_turn {s : State} {p : PEId} {rest : List Move} : Inv (s.turn p rest) ↔ Inv s := Iff.rfl

theorem inv_after {s : State} {rest : List Move} : Inv (s.after rest) ↔ Inv s := Iff.rfl

/-- An execution keeps the invariant. -/
theorem exec_keeps_inv {i : Instr} {s s' : State} (hinv : Inv s) (h : exec i s = .next s') : Inv s' := by
  obtain ⟨hmem, hpes, hops⟩ := hinv
  obtain ⟨p, hcan, hwf, hout⟩ := exec_next_outcome h
  have hp := hpes s.cur p hcan.1
  have hck' : ∀ r, accessCheck i.variant s.cfg { p with exc := some r } = accessCheck i.variant s.cfg p :=
    fun _ => accessCheck_congr rfl rfl rfl
  obtain ⟨hck, rfl⟩ | ⟨hck, rfl⟩ | ⟨-, lo, hi, -, -, -, rfl⟩ := hout
  · refine ⟨hmem, peSound_set hpes (hp.record ?_), by simpa using hops⟩
    exact ⟨rfl, rfl, (hck' _).trans hck⟩
  · refine ⟨hmem, peSound_set hpes (hp.record ?_), by simpa using hops⟩
    have hfile := inFile_of_wellFormed hwf
    simp only [RegNum.inFile, Bool.and_eq_true, bne_iff_ne] at hfile
    exact ⟨rfl, rfl, (hck' _).trans hck, hfile.1, hfile.2, rfl, rfl⟩
  · refine ⟨hmem, peSound_set hpes (hp.advance hcan.2.1), fun op hop => ?_⟩
    rw [List.length_set]
    obtain hold | hnew := List.mem_append.mp hop
    · exact hops op hold
    · rw [List.mem_singleton.mp hnew]
      exact newOp_sound hcan.1

/-- An agent's step leaves every PE sound: a removal takes an entry out, a fill adds one that the features allow. -/
theorem agentStep_keeps_peSound {m : AgentMove} {s s' : State} (hpes : ∀ i p, s.pes[i]? = some p → PeSound s.cfg i p)
    (h : agentStep m s = .next s') : ∀ i p, s'.pes[i]? = some p → PeSound s.cfg i p := by
  obtain ⟨-, -, -, -, hs | ⟨q, e, hs, -⟩ | ⟨q, e, -, -, hd128, hs⟩⟩ := agentStep_pes h <;> rw [hs]
  · exact hpes
  · refine peSound_modify hpes fun p hp => ?_
    obtain ⟨-, hnodup, hd, -⟩ := hpes q p hp
    exact (hpes q p hp).setTlb (hnodup.filter _) fun e' he' => hd e' (List.mem_filter.mp he').1
  · refine peSound_modify hpes fun p hp => ?_
    obtain ⟨-, hnodup, hd, -⟩ := hpes q p hp
    split
    · exact (hpes q p hp).setTlb hnodup hd
    · next hnew =>
      refine (hpes q p hp).setTlb (List.nodup_cons.mpr ⟨by simpa using hnew, hnodup⟩) fun e' he' => ?_
      obtain rfl | hold := List.mem_cons.mp he'
      · exact hd128
      · exact hd e' hold

/-- An agent's step adds and removes no PE. -/
theorem agentStep_pes_length {m : AgentMove} {s s' : State} (h : agentStep m s = .next s') :
    s'.pes.length = s.pes.length := by
  obtain ⟨-, -, -, -, hs | ⟨q, e, hs, -⟩ | ⟨q, e, -, -, -, hs⟩⟩ := agentStep_pes h <;> simp [hs]

/-- An agent's step keeps the invariant. -/
theorem agentStep_keeps_inv {m : AgentMove} {s s' : State} (hinv : Inv s) (h : agentStep m s = .next s') : Inv s' := by
  obtain ⟨hmem, hpes, hops⟩ := hinv
  obtain ⟨hcfg, hmem', -⟩ := agentStep_pes h
  refine ⟨hmem' ▸ hmem, hcfg ▸ agentStep_keeps_peSound hpes h, fun op' hop' => ?_⟩
  rw [hcfg, agentStep_pes_length h]
  obtain ⟨op, hop, rfl | ⟨_, q, e, _, -, rfl⟩⟩ := agentStep_pending h op' hop'
  · exact hops _ hop
  · exact (hops op hop).clear q e

/-- Settles O46: a step is an execution or an agent's step, and each keeps the invariant. -/
theorem stepKeepsTheInvariant : Obligations.StepKeepsTheInvariant := by
  unfold Obligations.StepKeepsTheInvariant
  intro s s' hinv h
  obtain ⟨p, rest, i, hexec, -⟩ | ⟨m, rest, -, hagent⟩ := step_next h
  · exact exec_keeps_inv (inv_turn.mpr hinv) hexec
  · exact agentStep_keeps_inv (inv_after.mpr hinv) hagent

/-- Settles O45: after reset every PE is at address 0 with a TLB without repeats and no record, and nothing is
pending. -/
theorem resetMeetsTheInvariant : Obligations.ResetMeetsTheInvariant := by
  unfold Obligations.ResetMeetsTheInvariant
  have hpe : ∀ n i, PeSound resetConfig i (resetPe n) := fun n i =>
    ⟨rfl, List.nodup_dedup _, fun _ _ _ => rfl, trivial⟩
  refine ⟨⟨reset_mem_wf, fun i p hp => ?_, fun op hop => absurd hop List.not_mem_nil⟩,
    fun op hop => absurd hop List.not_mem_nil⟩
  have hmem : p ∈ [resetPe 0, resetPe 1] := List.mem_of_getElem? hp
  obtain rfl | rfl := List.mem_pair.mp hmem <;> exact hpe _ i

/-! ### Track of stale entries -/

/-- An execution changes no TLB (70 R127). -/
theorem tlbOf_exec {i : Instr} {s s' : State} (h : exec i s = .next s') (q : PEId) : tlbOf s' q = tlbOf s q := by
  obtain ⟨p, p', hcan, hpes, hp'⟩ := exec_next_pe h
  have htlb : p'.tlb = p.tlb := by obtain rfl | ⟨r, rfl⟩ := hp' <;> rfl
  have hlt := (List.getElem?_eq_some_iff.mp hcan.1).1
  rw [tlbOf_eq_map, tlbOf_eq_map, hpes]
  by_cases hq : s.cur = q
  · subst hq
    rw [List.getElem?_set_self hlt, hcan.1, Option.map_some, htlb, Option.map_some]
  · rw [List.getElem?_set_ne hq]

theorem tracked_turn {s : State} {p : PEId} {rest : List Move} : Tracked (s.turn p rest) ↔ Tracked s := Iff.rfl

theorem tracked_after {s : State} {rest : List Move} : Tracked (s.after rest) ↔ Tracked s := Iff.rfl

/-- An execution keeps track: a new operation has everything still to do. -/
theorem exec_keeps_tracked {i : Instr} {s s' : State} (htr : Tracked s) (h : exec i s = .next s') : Tracked s' := by
  intro op hop t ht e he hcached
  rw [tlbOf_exec h] at hcached
  obtain hsame | ⟨p, lo, hi, -, hnew⟩ := exec_next_pending h
  · exact htr op (hsame ▸ hop) t ht e he hcached
  · rw [hnew] at hop
    obtain hold | hlast := List.mem_append.mp hop
    · exact htr op hold t ht e he hcached
    · rw [List.mem_singleton.mp hlast] at ht
      rwa [todo_of_mem_newOp_targets ht]

/-- The TLBs are a matter of the PEs alone (10_state R27). -/
theorem tlbOf_congr {s s' : State} (h : s'.pes = s.pes) (q : PEId) : tlbOf s' q = tlbOf s q := by
  rw [tlbOf_eq_map, h, ← tlbOf_eq_map]

/-- What an agent's step puts into a TLB is what it fills. -/
theorem mem_tlbOf_agentStep {m : AgentMove} {s s' : State} (h : agentStep m s = .next s') {q : PEId} {e : Entry}
    (he : e ∈ tlbOf s' q) : e ∈ tlbOf s q ∨ m = .fill q e := by
  obtain ⟨-, -, -, -, hs | ⟨p, e', hs, -⟩ | ⟨p, e', rfl, -, -, hs⟩⟩ := agentStep_pes h
  · rw [tlbOf_congr hs] at he
    exact .inl he
  · rw [tlbOf_congr hs, tlbOf_dropEntry] at he
    split at he
    · exact .inl (List.mem_filter.mp he).1
    · exact .inl he
  · rw [tlbOf_congr hs] at he
    obtain hold | ⟨rfl, rfl, -⟩ := mem_tlbOf_addEntry.mp he
    · exact .inl hold
    · exact .inr rfl

/-- What an agent's step takes out of a TLB it removes or evicts. -/
theorem not_mem_tlbOf_agentStep {m : AgentMove} {s s' : State} (h : agentStep m s = .next s') {q : PEId} {e : Entry}
    (hold : e ∈ tlbOf s q) (hgone : e ∉ tlbOf s' q) : (∃ k b, m = .remove k q e b) ∨ m = .evict q e := by
  obtain ⟨-, -, -, -, hs | ⟨p, e', hs, hm⟩ | ⟨p, e', -, -, -, hs⟩⟩ := agentStep_pes h
  · rw [tlbOf_congr hs] at hgone
    exact absurd hold hgone
  · rw [tlbOf_congr hs, tlbOf_dropEntry] at hgone
    split at hgone
    · next hq =>
      obtain rfl : e = e' := by simpa [hold] using hgone
      exact hq ▸ hm
    · exact absurd hold hgone
  · rw [tlbOf_congr hs] at hgone
    exact absurd (mem_tlbOf_addEntry.mpr (.inl hold)) hgone

/-- A removed entry is no longer in that TLB (41 R98). -/
theorem removeStep_not_mem_tlbOf {s s' : State} {k : Nat} {p : PEId} {e : Entry} {b : Bool}
    (h : agentStep (.remove k p e b) s = .next s') : e ∉ tlbOf s' p := by
  obtain ⟨op, -, -, hs⟩ := removeStep_next.mp h
  have hpes : s'.pes = (s.dropEntry p e).pes := by rw [hs]
  rw [tlbOf_congr hpes, tlbOf_dropEntry, if_pos rfl]
  simp

/-- An agent's step keeps track, unless it fills an entry that is required. -/
theorem agentStep_keeps_tracked {m : AgentMove} {s s' : State} (htr : Tracked s)
    (hfill : ∀ p e, m = .fill p e → ∀ op ∈ s.pending, ∀ t ∈ op.targets, t.pe = p → e ∉ t.req)
    (h : agentStep m s = .next s') : Tracked s' := by
  have hold : ∀ op ∈ s.pending, ∀ t ∈ op.targets, ∀ e ∈ t.req, e ∈ tlbOf s' t.pe → e ∈ t.todo := by
    intro op hop t ht e he hcached
    obtain hcached | hm := mem_tlbOf_agentStep h hcached
    · exact htr op hop t ht e he hcached
    · exact absurd he (hfill t.pe e hm op hop t ht rfl)
  intro op' hop' t ht e he hcached
  obtain ⟨op, hop, rfl | ⟨k, p, e', b, rfl, rfl⟩⟩ := agentStep_pending h op' hop'
  · exact hold _ hop t ht e he hcached
  · obtain ⟨t', ht', rfl⟩ := List.mem_map.mp ht
    rw [Target.clear_req] at he
    rw [Target.clear_pe] at hcached
    refine Target.mem_clear_todo.mpr ⟨hold op hop t' ht' e he hcached, ?_⟩
    rintro rfl rfl
    exact removeStep_not_mem_tlbOf h hcached

/-- Settles O47: an execution changes no TLB, and an agent takes an entry off a `todo` only with its removal. -/
theorem stepKeepsTrackOfStaleEntries : Obligations.StepKeepsTrackOfStaleEntries := by
  unfold Obligations.StepKeepsTrackOfStaleEntries
  intro s s' htr hrefill h
  obtain ⟨p, rest, i, hexec, -⟩ | ⟨m, rest, hag, hagent⟩ := step_next h
  · exact exec_keeps_tracked (tracked_turn.mpr htr) hexec
  · refine agentStep_keeps_tracked (tracked_after.mpr htr) (fun p e hm => ?_) hagent
    exact hrefill p e rest (hm ▸ hag)

end Sys2Proof.Machine
end

section
/-! The rules of 20_memory section 1: fetching, running, and where a step stops first. -/

namespace Sys2Proof.Machine

/-- A byte that stands there is fetched. -/
theorem fetchByte_of_readByte {m : Memory} {a : Nat} {b : Byte} (h : readByte m a = some b) :
    fetchByte m a = .next b := by simp [fetchByte, h]

theorem fetchByte_unwritten {m : Memory} {a : Nat} (h : readByte m a = none) :
    fetchByte m a = .fault (.fetchUnwritten a) := by simp [fetchByte, h]

/-- Four bytes that stand there are one little-endian word (20_memory R38). -/
theorem readWord_of_readByte {m : Memory} {a : Nat} {b0 b1 b2 b3 : Byte} (h0 : readByte m a = some b0)
    (h1 : readByte m (a + 1) = some b1) (h2 : readByte m (a + 2) = some b2) (h3 : readByte m (a + 3) = some b3) :
    readWord m a = .next (wordOfBytes b0 b1 b2 b3) := by
  simp only [readWord, fetchByte_of_readByte h0, fetchByte_of_readByte h1, fetchByte_of_readByte h2,
    fetchByte_of_readByte h3, andThen_of_next]

/-- A word is not fetched past its first missing byte (log entry 4). -/
theorem readWord_unwritten {m : Memory} {a k : Nat} (hk : k < 4)
    (hbefore : ∀ j, j < k → (readByte m (a + j)).isSome = true) (hnone : readByte m (a + k) = none) :
    readWord m a = .fault (.fetchUnwritten (a + k)) := by
  have hfetch : ∀ j, j < k → ∃ b, fetchByte m (a + j) = .next b := fun j hj => by
    obtain ⟨b, hb⟩ := Option.isSome_iff_exists.mp (hbefore j hj)
    exact ⟨b, fetchByte_of_readByte hb⟩
  have hstop := fetchByte_unwritten hnone
  match k with
  | 0 =>
    rw [Nat.add_zero] at hstop ⊢
    simp only [readWord, hstop, andThen_of_fault]
  | 1 =>
    obtain ⟨b0, h0⟩ := hfetch 0 (by omega)
    rw [Nat.add_zero] at h0
    simp only [readWord, h0, hstop, andThen_of_next, andThen_of_fault]
  | 2 =>
    obtain ⟨b0, h0⟩ := hfetch 0 (by omega)
    obtain ⟨b1, h1⟩ := hfetch 1 (by omega)
    rw [Nat.add_zero] at h0
    simp only [readWord, h0, h1, hstop, andThen_of_next, andThen_of_fault]
  | 3 =>
    obtain ⟨b0, h0⟩ := hfetch 0 (by omega)
    obtain ⟨b1, h1⟩ := hfetch 1 (by omega)
    obtain ⟨b2, h2⟩ := hfetch 2 (by omega)
    rw [Nat.add_zero] at h0
    simp only [readWord, h0, h1, h2, hstop, andThen_of_next, andThen_of_fault]

/-- A PE that can execute fetches the word at its `pc`. -/
theorem fetch_of_canExecute {s : State} {p : Pe} (h : CanExecute s p) : fetch s = readWord s.mem p.pc.toNat := by
  rw [fetch, executingPe_next.mpr h, andThen_of_next]

/-- A fetched word runs as the instruction it decodes to. -/
theorem runCurrent_of_fetch {s : State} {w : Word32} {i : Instr} (hw : fetch s = .next w)
    (hi : decodeWord w = .ok i) : runCurrent s = exec i s := by
  simp [runCurrent, hw, hi]

/-- With nothing scheduled the executing PE runs (log entry 23). -/
theorem step_of_agenda_nil {s : State} (h : s.agenda = []) : step s = runCurrent s := by simp [step, h]

/-- Settles O9: both forms of the step run the executing PE, whose fetch gives the word. -/
theorem stepRunsTheDecodedInstruction : Obligations.StepRunsTheDecodedInstruction := by
  unfold Obligations.StepRunsTheDecodedInstruction
  intro s p b0 b1 b2 b3 i hcan h0 h1 h2 h3 hdec
  have hi : decodeWord (wordOfBytes b0 b1 b2 b3) = .ok i := congrArg Prod.fst hdec
  have hw := readWord_of_readByte h0 h1 h2 h3
  refine ⟨fun hag => ?_, fun rest c => ?_⟩
  · rw [step_of_agenda_nil hag]
    exact runCurrent_of_fetch ((fetch_of_canExecute hcan).trans hw) hi
  · have hcan' : CanExecute { s with agenda := rest } p := hcan
    exact runCurrent_of_fetch ((fetch_of_canExecute hcan').trans hw) hi

/-- Settles O10: a scheduled agent's move comes off the agenda and is made. -/
theorem stepPerformsTheScheduledMove : Obligations.StepPerformsTheScheduledMove := by
  unfold Obligations.StepPerformsTheScheduledMove
  intro s m rest h
  simp [step, h]

/-- A fetch that stops, stops the step. -/
theorem step_of_fetch_fault {s : State} {r : Fault} (hag : s.agenda = []) (h : fetch s = .fault r) :
    step s = .fault r := by
  rw [step_of_agenda_nil hag, runCurrent, h, andThen_of_fault]

theorem step_of_executingPe_refused {s : State} {r : Refusal} (hag : s.agenda = []) (h : executingPe s = .refused r) :
    step s = .refused r := by
  rw [step_of_agenda_nil hag, runCurrent, fetch, h, andThen_of_refused, andThen_of_refused]

/-- Settles O11: the executing PE, the fetch and the decoding are tested in this order. -/
theorem stepStopsBeforeExecution : Obligations.StepStopsBeforeExecution := by
  unfold Obligations.StepStopsBeforeExecution
  intro s hag
  refine ⟨fun h => step_of_executingPe_refused hag (executingPe_noSuchPe h), fun p r hp hr => ?_,
    fun p hp hr => ⟨fun hpc => step_of_executingPe_refused hag (executingPe_pcMisaligned hp hr hpc),
      fun hpc => step_of_executingPe_refused hag (executingPe_pcAtTop hp hr hpc)⟩,
    fun p w r _ hw hdec => ?_, fun p k hcan hk hbefore hnone => ?_⟩
  · refine step_of_fetch_fault hag ?_
    rw [fetch, executingPe_exceptionRecorded hp hr, andThen_of_fault]
  · rw [step_of_agenda_nil hag]
    simp [runCurrent, hw, hdec]
  · exact step_of_fetch_fault hag ((fetch_of_canExecute hcan).trans (readWord_unwritten hk hbefore hnone))

/-- Bytes written below the top of the address space: each at its address, and every other byte as before. -/
theorem readByte_writeBytes {bs : List Byte} : ∀ {m : Memory} {a : Nat} (a' : Nat), a + bs.length ≤ 2 ^ 64 →
    readByte (writeBytes m a bs) a' =
      if a ≤ a' ∧ a' < a + bs.length then bs[a' - a]? else readByte m a' := by
  induction bs with
  | nil =>
    intro m a a' _
    rw [writeBytes, if_neg (by simp)]
  | cons b bs ih =>
    intro m a a' h
    rw [List.length_cons] at h ⊢
    rw [writeBytes, ih a' (by omega), readByte_writeByte (by omega)]
    obtain hlt | rfl | hgt := lt_trichotomy a' a
    · rw [if_neg (by omega), if_neg (by omega), if_neg (by omega)]
    · rw [if_neg (by omega), if_pos rfl, if_pos (by omega), Nat.sub_self, List.getElem?_cons_zero]
    · obtain ⟨d, rfl⟩ : ∃ d, a' = a + (d + 1) := ⟨a' - a - 1, by omega⟩
      have hnext : a + (d + 1) - (a + 1) = d := by omega
      rw [if_neg (show a + (d + 1) ≠ a by omega), hnext, Nat.add_sub_cancel_left, List.getElem?_cons_succ]
      exact if_congr (by omega) rfl rfl

/-- Where the whole word stands whose placing is asked for (log entry 34). -/
theorem withFetchWord_eq {s : State} {p : Pe} (hp : s.pes[s.cur]? = some p) (w : Word32) :
    s.withFetchWord 32 w.toNat = { s with mem := writeBytes s.mem p.pc.toNat (bytesOfWord w), agenda := [] } := by
  have hw : BitVec.ofNat 32 (w.toNat % 2 ^ 32) = w := by
    rw [Nat.mod_eq_of_lt w.isLt, BitVec.ofNat_toNat, BitVec.setWidth_eq]
  simp only [State.withFetchWord, hp, hw]

/-- A PE that can execute stands below the last word of the address space (10_state R17). -/
theorem CanExecute.pc_add_four_le {s : State} {p : Pe} (h : CanExecute s p) : p.pc.toNat + 4 ≤ 2 ^ 64 := by
  obtain ⟨-, -, hal, htop⟩ := h
  have := p.pc.isLt
  omega

/-- A word written where it fits is the word read there (20_memory R38). -/
theorem readWord_writeBytes_bytesOfWord {m : Memory} {a : Nat} (w : Word32) (h : a + 4 ≤ 2 ^ 64) :
    readWord (writeBytes m a (bytesOfWord w)) a = .next w := by
  have hbyte : ∀ j, j < 4 → readByte (writeBytes m a (bytesOfWord w)) (a + j) = (bytesOfWord w)[j]? := fun j hj => by
    rw [readByte_writeBytes _ h, if_pos ⟨by omega, Nat.add_lt_add_left hj a⟩, Nat.add_sub_cancel_left]
  have hword := readWord_of_readByte (hbyte 0 (by omega)) (hbyte 1 (by omega)) (hbyte 2 (by omega)) (hbyte 3 (by omega))
  rwa [wordOfBytes_bytesOfWord] at hword

/-- Settles O12: the word's own bytes stand where they are fetched. -/
theorem placedWordRunsNext : Obligations.PlacedWordRunsNext := by
  unfold Obligations.PlacedWordRunsNext
  intro s p i w hcan henc
  have hpc := hcan.pc_add_four_le
  have hcan' : CanExecute { s with mem := writeBytes s.mem p.pc.toNat (bytesOfWord w), agenda := [] } p := hcan
  rw [withFetchWord_eq hcan.1 w]
  refine ⟨?_, rfl, rfl, fun a ha => ?_⟩
  · have hfetch := (fetch_of_canExecute hcan').trans (readWord_writeBytes_bytesOfWord w hpc)
    rw [step_of_agenda_nil rfl, runCurrent_of_fetch hfetch (decodeWord_ok_iff.mpr henc)]
  · have hlen : (bytesOfWord w).length = 4 := rfl
    rw [readByte_writeBytes a hpc, hlen, if_neg (by omega)]

end Sys2Proof.Machine
end

section
/-! The rules about the control bits and the operand (10_state section 5, 30_encoding section 2), the granule in use and
the required set (41 section 2). -/

namespace Sys2Proof.Machine

/-- Settles O28: `ss_of` reads NSE only with FEAT_RME. -/
theorem securityStateFromScr : Obligations.SecurityStateFromScr := by
  unfold Obligations.SecurityStateFromScr
  refine ⟨fun c p hrme => ⟨fun hns => ?_, fun hns => ?_⟩,
    fun c p hrme => ⟨fun hnse hns => ?_, fun hnse hns => ?_, fun hnse hns => ?_, fun hnse hns => ?_⟩,
    fun c p p' h => by rw [securityStateAtEL2, h, securityStateAtEL2]⟩
  · simp [securityStateAtEL2, ssOf, hrme, hns]
  · simp [securityStateAtEL2, ssOf, hrme, hns]
  · simp [securityStateAtEL2, ssOf, hrme, hnse, hns]
  · simp [securityStateAtEL2, ssOf, hrme, hnse, hns]
  · simp [securityStateAtEL2, ssOf, hrme, hnse, hns]
  · simp [securityStateAtEL2, ssOf, hrme, hnse, hns]

/-- Settles O29: the operand is the number `hi * 2^64 + lo`, and each field a quotient of it. -/
theorem operandFieldsComeFromTheRegisters : Obligations.OperandFieldsComeFromTheRegisters := by
  unfold Obligations.OperandFieldsComeFromTheRegisters
  intro lo hi
  have hlo := lo.isLt
  refine ⟨?_, ?_, ?_, fun c => res0OK_op128Of⟩
  · rw [vaOf, BitVec.extractLsb'_toNat, op128Of_toNat, Nat.shiftRight_eq_div_pow]
    omega
  · rw [asidOf_op128Of, BitVec.extractLsb'_toNat, Nat.shiftRight_eq_div_pow]
    omega
  · rw [ttlOf_op128Of, BitVec.extractLsb'_toNat, Nat.shiftRight_eq_div_pow]

/-- The values of TTL with upper half 0 name no granule (30_encoding R63). -/
theorem ttlHint_of_lt_four {c : Config} {ttl : BitVec 4} (h : ttl.toNat < 4) : ttlHint c ttl = none := by
  have hne : ∀ v : BitVec 4, 4 ≤ v.toNat → ttl ≠ v := by
    rintro v hv rfl
    omega
  simp [ttlHint, hne]

/-- Settles O30: the definition, value by value. -/
theorem ttlHintTable : Obligations.TtlHintTable := by
  unfold Obligations.TtlHintTable
  refine ⟨fun c hoff ttl => by simp [ttlHint, hoff], fun c hon => ⟨fun ttl h => ttlHint_of_lt_four h, ?_⟩⟩
  simp [ttlHint, hon]

/-- Pages of one block of a granule have one base for every larger granule (41 R92). -/
theorem blockBase_eq_of_block {g g' : Granule} {va va' : PageNum} (hle : granuleBits g ≤ granuleBits g')
    (h : va'.toNat / 2 ^ granuleBits g = va.toNat / 2 ^ granuleBits g) : blockBase g' va' = blockBase g' va := by
  obtain ⟨d, hd⟩ := Nat.exists_eq_add_of_le hle
  rw [blockBase, blockBase, hd, pow_add, ← Nat.div_div_eq_div_mul, h, Nat.div_div_eq_div_mul]

/-- Settles O32: the granule in use is decided at block bases of that granule and larger ones. -/
theorem granuleIgnoresItsOwnLowBits : Obligations.GranuleIgnoresItsOwnLowBits := by
  unfold Obligations.GranuleIgnoresItsOwnLowBits
  intro t r ss va va' h
  have hbase : ∀ g', granuleBits (granuleUsed t r ss va) ≤ granuleBits g' → blockBase g' va' = blockBase g' va :=
    fun g' hle => blockBase_eq_of_block hle h
  by_cases h64 : tableGranule t r ss (blockBase .kb64 va) = .kb64
  · have hb64 := hbase .kb64 (granuleBits_le _)
    simp only [granuleUsed, hb64, h64, if_true]
  · have hle : granuleBits (granuleUsed t r ss va) ≤ granuleBits .kb16 := by
      unfold granuleUsed
      split_ifs <;> simp [granuleBits]
    have hb64 := hbase .kb64 (granuleBits_le _)
    have hb16 := hbase .kb16 hle
    simp only [granuleUsed, hb64, hb16]

/-- A match is a candidate as 41 R88 lists the requirements. -/
theorem matchEntry_iff_isCandidate {c : Config} {g : Granule} {a : TlbipArgs} {e : Entry} :
    matchEntry c g a e = true ↔ IsCandidate c g a e := by
  have hdesc : descOK a e = true ↔
      e.descBits = .d64 ∨ (e.descBits = .d128 ∧ a.op128.extractLsb' 46 2 = 0b00#2) := by
    have hbits : ttlGranuleBits a.op128 = a.op128.extractLsb' 46 2 := by
      ext k hk
      have hk' : 2 + k < 4 := by omega
      simp [ttlGranuleBits, ttlOf, hk', ← Nat.add_assoc]
    simp [descOK, hbits]
  have hasid : asidOK c a e = true ↔
      a.regime = .el2 ∨ e.isGlobal = true ∨ (c.asidBits = .b16 ∧ e.asid = a.op128.extractLsb' 48 16) ∨
        (c.asidBits = .b8 ∧ e.asid.extractLsb' 0 8 = a.op128.extractLsb' 48 8) := by
    have hlow : (a.op128.extractLsb' 48 16).extractLsb' 0 8 = a.op128.extractLsb' 48 8 := by
      ext k hk
      have hk' : k < 16 := by omega
      simp [hk']
    cases hr : a.regime <;> cases hb : c.asidBits <;> simp [asidOK, asidMatches, hr, hb, hlow, asidOf]
  rw [matchEntry_iff, IsCandidate, hdesc, coversMasked_iff, hasid, vaOf]

theorem agrees_iff_hintAgrees {c : Config} {a : TlbipArgs} {e : Entry} : agrees c a e = true ↔ HintAgrees c a e := by
  unfold agrees HintAgrees ttlOf
  cases ttlHint c (a.op128.extractLsb' 44 4) <;> simp

/-- The required set when one candidate against the hint releases all (41 R96). -/
theorem mem_required_allOrNothing {c : Config} {g : Granule} {a : TlbipArgs} {tlb : List Entry} {e : Entry}
    (h : c.ttlReading = .allOrNothing) :
    e ∈ required c g a tlb ↔ e ∈ candidates c g a tlb ∧ ∀ e' ∈ candidates c g a tlb, agrees c a e' = true := by
  rw [required, h]
  dsimp only
  split
  · next hall => exact (and_iff_left (List.all_eq_true.mp hall)).symm
  · next hall => exact iff_of_false List.not_mem_nil fun hand => hall (List.all_eq_true.mpr hand.2)

/-- The required set when each candidate is released by itself (41 R96). -/
theorem mem_required_perEntry {c : Config} {g : Granule} {a : TlbipArgs} {tlb : List Entry} {e : Entry}
    (h : c.ttlReading = .perEntry) :
    e ∈ required c g a tlb ↔ e ∈ candidates c g a tlb ∧ agrees c a e = true := by
  rw [required, h, List.mem_filter]

/-- Settles O33: the match is the list of requirements, and either reading combines it with the hint. -/
theorem requiredSetIsWhatTheSpecSays : Obligations.RequiredSetIsWhatTheSpecSays := by
  unfold Obligations.RequiredSetIsWhatTheSpecSays
  intro c g a tlb e
  refine ⟨fun h => ?_, fun h => ?_⟩
  · rw [mem_required_allOrNothing h]
    simp only [mem_candidates, matchEntry_iff_isCandidate, agrees_iff_hintAgrees, and_assoc, and_imp]
  · rw [mem_required_perEntry h]
    simp only [mem_candidates, matchEntry_iff_isCandidate, agrees_iff_hintAgrees, and_assoc]

/-- Rows that do not speak of a page are passed over (log entry 17). -/
theorem find?_rowHolds_eq_none {rows : List GranuleRow} {r : Regime} {ss : SecurityState} {va : PageNum}
    (h : ∀ row ∈ rows, ¬RowIsAbout row r ss va) : rows.find? (rowHolds r ss va) = none :=
  List.find?_eq_none.mpr fun row hrow hh => h row hrow (rowHolds_iff.mp hh)

/-- Settles O54: on the whole block the table's answer is the first row's that speaks, or the other granule. -/
theorem granuleIsWhatTheTableSays : Obligations.GranuleIsWhatTheTableSays := by
  unfold Obligations.GranuleIsWhatTheTableSays
  refine ⟨fun above below row o r ss va habove hrow => granuleUsed_of_uniform fun va' hblock => ?_,
    fun t r ss va hnone => granuleUsed_of_uniform fun va' hblock => ?_⟩
  · have hskip := find?_rowHolds_eq_none fun row' hmem => habove row' hmem va' hblock
    have hfind : (above ++ row :: below).find? (rowHolds r ss va') = some row := by
      rw [List.find?_append, hskip, Option.none_or, List.find?_cons_of_pos (rowHolds_iff.mpr (hrow va' hblock))]
    rw [tableGranule, hfind]
  · rw [tableGranule, find?_rowHolds_eq_none fun row hmem => hnone row hmem va' hblock]

end Sys2Proof.Machine
end

section
/-! The rules of 41 section 3, 20_memory section 3 and 10_state section 6: what each agent's step does. -/

namespace Sys2Proof.Machine

/-! ### Removal -/

section Removal
variable {s s' : State} {k : Nat} {p : PEId} {e : Entry} {shared : Bool}

/-- A place of `pending` after a removal: cleared where the removal serves it, and as before elsewhere
(41 R98, R103). -/
theorem removeStep_pending (h : removeStep s k p e shared = .next s') (n : Nat) :
    s'.pending[n]? = (s.pending[n]?).map fun op => if n = k ∨ shared = true then op.clear p e else op := by
  obtain ⟨-, -, -, rfl⟩ := removeStep_next.mp h
  cases shared with
  | true => simp
  | false =>
    simp only [Bool.false_eq_true, if_false, List.getElem?_modify, or_false, @eq_comm _ n k]
    split <;> simp_all

/-- A removal is enabled exactly for an entry still to do (41 R98). -/
theorem removeStep_enabled :
    (∃ s', removeStep s k p e shared = .next s') ↔
      ∃ op, s.pending[k]? = some op ∧ ∃ t ∈ op.targets, t.pe = p ∧ e ∈ t.todo := by
  constructor
  · rintro ⟨s', h⟩
    obtain ⟨op, hop, htodo, -⟩ := removeStep_next.mp h
    exact ⟨op, hop, Op.hasTodo_iff.mp htodo⟩
  · rintro ⟨op, hop, htodo⟩
    exact ⟨_, removeStep_next.mpr ⟨op, hop, Op.hasTodo_iff.mpr htodo, rfl⟩⟩

end Removal

/-- Clearing leaves everything of an operation but its `todo` (41 R98). -/
theorem Op.clear_fixed (p : PEId) (e : Entry) (op : Op) :
    (op.clear p e).targets.map (fun t => (t.pe, t.req)) = op.targets.map (fun t => (t.pe, t.req)) := by
  simp [Function.comp_def]

/-- Target by target, what clearing takes out of a `todo`. -/
theorem Op.clear_todo {p : PEId} {e e' : Entry} {op : Op} {m : Nat} {t t' : Target} (ht : op.targets[m]? = some t)
    (ht' : (op.clear p e).targets[m]? = some t') : e' ∈ t'.todo ↔ e' ∈ t.todo ∧ (t.pe = p → e' ≠ e) := by
  rw [Op.clear_targets, List.getElem?_map, ht] at ht'
  cases ht'
  exact Target.mem_clear_todo

/-- Settles O37: a removal drops the entry from one TLB and clears the operations that it serves. -/
theorem removalTakesTheEntryOut : Obligations.RemovalTakesTheEntryOut := by
  unfold Obligations.RemovalTakesTheEntryOut
  intro s k p e shared
  refine ⟨removeStep_enabled, fun s' h => ?_⟩
  have hpending := removeStep_pending h
  obtain ⟨hcfg, hmem, hcur, hag, -⟩ := agentStep_pes h
  obtain ⟨-, -, -, hs⟩ := removeStep_next.mp h
  have hpes : s'.pes = (s.dropEntry p e).pes := by rw [hs]
  have hacc : s'.accesses = s.accesses := by rw [hs]; rfl
  have hlen : s'.pending.length = s.pending.length := by rw [hs]; cases shared <;> simp
  refine ⟨hcfg, hmem, hcur, hacc, hag, fun q hq => ?_,
    fun pe hpe => ⟨pe.tlb.filter fun e' => e' != e, ?_, fun e' => by simp⟩, hlen, fun n op op' hop hop' => ?_⟩
  · simp [hpes, hq.symm]
  · simp [hpes, hpe]
  · rw [hpending, hop, Option.map_some, Option.some.injEq] at hop'
    split at hop'
    · next hserved =>
      subst hop'
      exact ⟨rfl, rfl, Op.clear_fixed p e op, fun m t t' ht ht' e' => (Op.clear_todo ht ht').trans (by simp [hserved])⟩
    · next hserved =>
      subst hop'
      refine ⟨rfl, rfl, rfl, fun m t t' ht ht' e' => ?_⟩
      obtain rfl : t = t' := Option.some.inj (ht.symm.trans ht')
      simp [hserved]

/-- Two clearings of an operation come in either order. -/
theorem Op.clear_comm (p p' : PEId) (e e' : Entry) (op : Op) :
    (op.clear p e).clear p' e' = (op.clear p' e').clear p e := by
  have htarget : ∀ t : Target, (t.clear p e).clear p' e' = (t.clear p' e').clear p e := fun t => by
    unfold Target.clear
    split_ifs <;> simp_all [List.filter_filter, Bool.and_comm]
  simp [Op.clear, Function.comp_def, htarget]

/-- Clearing adds nothing to a `todo`, and takes out the one entry only. -/
theorem Op.hasTodo_clear {p p' : PEId} {e e' : Entry} {op : Op} :
    (op.clear p e).hasTodo p' e' = true ↔ op.hasTodo p' e' = true ∧ (p', e') ≠ (p, e) := by
  simp only [Op.hasTodo_iff, Op.clear_targets, List.mem_map, exists_exists_and_eq_and, Target.clear_pe,
    Target.mem_clear_todo]
  constructor
  · rintro ⟨t, ht, rfl, htodo, hne⟩
    exact ⟨⟨t, ht, rfl, htodo⟩, fun heq => hne (congrArg Prod.fst heq) (congrArg Prod.snd heq)⟩
  · rintro ⟨⟨t, ht, rfl, htodo⟩, hne⟩
    exact ⟨t, ht, rfl, htodo, fun hp he => hne (by rw [hp, he])⟩

/-- Changes at two places of a list, or two at one place that commute, come in either order. -/
theorem modify_comm {α : Type} {f g : α → α} (hfg : ∀ a, f (g a) = g (f a)) (l : List α) (m n : Nat) :
    (l.modify m f).modify n g = (l.modify n g).modify m f := by
  apply List.ext_getElem?
  intro j
  simp only [List.getElem?_modify]
  cases l[j]? with
  | none => rfl
  | some a => by_cases hm : m = j <;> by_cases hn : n = j <;> simp [hm, hn, hfg]

/-- Two entries that go, go in either order. -/
theorem State.dropEntry_comm (s : State) (p p' : PEId) (e e' : Entry) :
    (s.dropEntry p e).dropEntry p' e' = (s.dropEntry p' e').dropEntry p e := by
  have hfilter : ∀ pe : Pe, (pe.tlb.filter fun x => x != e').filter (fun x => x != e) =
      (pe.tlb.filter fun x => x != e).filter fun x => x != e' := fun pe => by
    simp only [List.filter_filter, Bool.and_comm]
  have hpes := modify_comm (f := fun pe : Pe => { pe with tlb := pe.tlb.filter fun x => x != e })
    (g := fun pe : Pe => { pe with tlb := pe.tlb.filter fun x => x != e' }) (fun pe => by simp [hfilter]) s.pes p p'
  simp [State.dropEntry, State.updPe, hpes]

/-- The state after a removal for one operation alone (41 R98). -/
def State.removed (s : State) (k : Nat) (p : PEId) (e : Entry) : State :=
  { s.dropEntry p e with pending := s.pending.modify k (Op.clear p e) }

theorem removeStep_unshared {s s' : State} {k : Nat} {p : PEId} {e : Entry} :
    removeStep s k p e false = .next s' ↔
      ∃ op, s.pending[k]? = some op ∧ op.hasTodo p e = true ∧ s' = s.removed k p e := removeStep_next

theorem State.removed_comm (s : State) (k k' : Nat) (p p' : PEId) (e e' : Entry) :
    (s.removed k p e).removed k' p' e' = (s.removed k' p' e').removed k p e := by
  have hpending := modify_comm (Op.clear_comm p p' e e') s.pending k' k
  have hdrop := congrArg State.pes (State.dropEntry_comm s p p' e e')
  simp only [State.dropEntry_pes] at hdrop
  simp [State.removed, State.dropEntry, State.updPe, hdrop, hpending]

/-- A removal leaves every other thing that is still to do. -/
theorem removed_hasTodo {s : State} {k k' : Nat} {p p' : PEId} {e e' : Entry} :
    (∃ op, (s.removed k p e).pending[k']? = some op ∧ op.hasTodo p' e' = true) ↔
      (∃ op, s.pending[k']? = some op ∧ op.hasTodo p' e' = true) ∧ (k', p', e') ≠ (k, p, e) := by
  have hplace : (s.removed k p e).pending[k']? =
      (s.pending[k']?).map fun op => if k = k' then op.clear p e else op := by
    simp only [State.removed, List.getElem?_modify]
    split <;> simp
  rw [hplace]
  cases s.pending[k']? with
  | none => simp
  | some op =>
    by_cases hk : k = k'
    · simp [hk, Op.hasTodo_clear]
    · simp [hk, Ne.symm hk]

/-- Settles O44: neither removal takes away what the other needs, and the two clearings and drops commute. -/
theorem removalsComeInAnyOrder : Obligations.RemovalsComeInAnyOrder := by
  unfold Obligations.RemovalsComeInAnyOrder
  intro s s1 s2 k k' p p' e e' hne h1 h2
  obtain ⟨op, hop, htodo, rfl⟩ := removeStep_unshared.mp h1
  obtain ⟨op', hop', htodo', rfl⟩ := removeStep_unshared.mp h2
  obtain ⟨⟨o', ho', hto'⟩, -⟩ := removed_hasTodo.mp ⟨op', hop', htodo'⟩
  obtain ⟨o, ho, hto⟩ := removed_hasTodo.mpr ⟨⟨op, hop, htodo⟩, hne⟩
  exact ⟨s.removed k' p' e', removeStep_unshared.mpr ⟨o', ho', hto', rfl⟩,
    removeStep_unshared.mpr ⟨o, ho, hto, State.removed_comm s k k' p p' e e'⟩⟩

/-! ### Completion -/

/-- What an operation waits for of an access (20_memory R43, R44). -/
theorem waitsFor_iff {attr : TlbiAttr} {a : MemAccess} :
    waitsFor attr a = true ↔ (attr = .excludeXS → a.xs = 0#1) := by cases attr <;> simp [waitsFor]

/-- The completion condition in the words of the statements: nothing left to do, and no access blocks. -/
theorem canComplete_iff_blocks {accesses : List MemAccess} {op : Op} :
    canComplete accesses op = true ↔ (∀ t ∈ op.targets, t.todo = []) ∧ ∀ a ∈ accesses, ¬Blocks op a := by
  rw [canComplete_iff]
  constructor
  · refine fun h => ⟨fun t ht => (h t ht).1, fun a ha hblocks => ?_⟩
    obtain ⟨hincomplete, hxs, t, ht, hpe, huse⟩ := hblocks
    have hdone := (h t ht).2 a ha (usesRequired_iff.mpr ⟨hpe, huse⟩) (waitsFor_iff.mpr hxs)
    rw [hincomplete] at hdone
    cases hdone
  · refine fun ⟨htodo, hfree⟩ t ht => ⟨htodo t ht, fun a ha huses hwaits => ?_⟩
    obtain ⟨hpe, huse⟩ := usesRequired_iff.mp huses
    by_contra hincomplete
    exact hfree a ha ⟨by simpa using hincomplete, waitsFor_iff.mp hwaits, t, ht, hpe, huse⟩

/-- Settles O38: the completion condition is that nothing is left and nothing blocks. -/
theorem completionExactlyWhenNothingIsLeft : Obligations.CompletionExactlyWhenNothingIsLeft := by
  unfold Obligations.CompletionExactlyWhenNothingIsLeft
  intro s s' k
  refine completeStep_next.trans ?_
  simp only [canComplete_iff_blocks, and_assoc]

/-- Settles O40: the new operation has nothing to do, and no access uses an entry that it requires. -/
theorem emptyRequirementCompletesAtOnce : Obligations.EmptyRequirementCompletesAtOnce := by
  unfold Obligations.EmptyRequirementCompletesAtOnce
  intro i s s' op h hpending hempty
  obtain ⟨p, lo, hi, -, hop⟩ := exec_next_pending_append h hpending
  refine completeStep_next.mpr ⟨op, by simp [hpending], canComplete_iff_blocks.mpr ⟨fun t ht => ?_, fun a _ hb => ?_⟩,
    by simp [hpending, List.eraseIdx_append_of_length_le]⟩
  · rw [todo_of_mem_newOp_targets (hop ▸ ht), hempty t ht]
  · obtain ⟨-, -, t, ht, -, e, -, he⟩ := hb
    rw [hempty t ht] at he
    cases he

/-! ### Entries and accesses -/

/-- Settles O41: an entry that is cached may be evicted, which drops it. -/
theorem anyEntryMayVanish : Obligations.AnyEntryMayVanish := by
  unfold Obligations.AnyEntryMayVanish
  intro s p pe e hpe he
  refine ⟨_, _, evictStep_next.mpr ⟨by rwa [tlbOf_eq hpe], rfl⟩, modify_eq_set hpe, fun e' => by simp, rfl, rfl, rfl⟩

/-- A fill that is not allowed is not enabled (log entry 28). -/
theorem fillStep_refused {s : State} {p : PEId} {e : Entry}
    (h : ¬(p < s.pes.length ∧ (e.descBits = .d128 → s.cfg.featD128 = true))) :
    fillStep s p e = .refused (.moveNotEnabled (.fill p e)) := by rw [fillStep, if_neg h]

/-- Settles O42: a fill adds the entry to a TLB unless it is there. -/
theorem fillAddsOneEntry : Obligations.FillAddsOneEntry := by
  unfold Obligations.FillAddsOneEntry
  refine ⟨fun s p pe e hpe hd128 => ⟨if pe.tlb.contains e then pe.tlb else e :: pe.tlb, ?_, fun e' => ?_⟩,
    fun s p e hd128 hoff => fillStep_refused fun ⟨_, hon⟩ => ?_, fun s p e hnone => fillStep_refused fun ⟨hlt, _⟩ => ?_⟩
  · refine fillStep_next.mpr ⟨(List.getElem?_eq_some_iff.mp hpe).1, hd128, ?_⟩
    rw [State.addEntry, State.updPe, modify_eq_set hpe]
  · split
    · next hin =>
      exact ⟨.inr, fun h => h.elim (fun heq => heq ▸ by simpa using hin) id⟩
    · exact List.mem_cons
  · rw [hon hd128] at hoff
    cases hoff
  · exact absurd hlt (Nat.not_lt.mpr (List.getElem?_eq_none_iff.mp hnone))

/-- Settles O43: an access starts at the end of the list, and completes in its place. -/
theorem accessesStartAndComplete : Obligations.AccessesStartAndComplete := by
  unfold Obligations.AccessesStartAndComplete
  refine ⟨fun s p uses xs hp => beginAccessStep_next.mpr ⟨hp, rfl⟩, fun s n a ha hincomplete => ?_⟩
  refine endAccessStep_next.mpr ⟨a, ha, hincomplete, ?_⟩
  rw [List.modify_eq_set_getElem?, ha]
  rfl

end Sys2Proof.Machine
end

section
/-! What every step of the machine does, and what completion promises (20_memory section 3, 70_reset_and_hazards). -/

namespace Sys2Proof.Machine

/-- A change of one PE's TLB leaves everything else of every PE. -/
theorem getElem?_modify_tlb {f : Pe → Pe} (hf : ∀ p, ∃ tlb, f p = { p with tlb := tlb }) {l : List Pe} {n q : Nat}
    {p : Pe} (hp : l[q]? = some p) : ∃ tlb, (l.modify n f)[q]? = some { p with tlb := tlb } := by
  rw [List.getElem?_modify, hp]
  by_cases hn : n = q
  · obtain ⟨tlb, htlb⟩ := hf p
    exact ⟨tlb, by simp [hn, htlb]⟩
  · exact ⟨p.tlb, by simp [hn]⟩

/-- What every agent's step leaves of a PE (10_state sections 2 to 5). -/
theorem agentStep_pe {m : AgentMove} {s s' : State} (h : agentStep m s = .next s') {q : PEId} {p : Pe}
    (hp : s.pes[q]? = some p) : ∃ tlb, s'.pes[q]? = some { p with tlb := tlb } := by
  obtain ⟨-, -, -, -, hs | ⟨n, e, hs, -⟩ | ⟨n, e, -, -, -, hs⟩⟩ := agentStep_pes h
  · exact ⟨p.tlb, hs ▸ hp⟩
  · rw [hs, State.dropEntry_pes]
    exact getElem?_modify_tlb (fun _ => ⟨_, rfl⟩) hp
  · rw [hs, State.addEntry_pes]
    exact getElem?_modify_tlb (fun _ => ⟨_, rfl⟩) hp

/-- What every step does to a PE: another TLB, or on a PE without a record an advanced `pc` or a record. -/
theorem step_pe {s s' : State} (h : step s = .next s') {q : PEId} {p : Pe} (hp : s.pes[q]? = some p) :
    ∃ p', s'.pes[q]? = some p' ∧ ((∃ tlb, p' = { p with tlb := tlb }) ∨
      (p.exc = none ∧ (p' = { p with pc := p.pc + 4#64 } ∨ ∃ r, p' = { p with exc := some r }))) := by
  obtain ⟨n, rest, i, hexec, -⟩ | ⟨m, rest, -, hagent⟩ := step_next h
  · obtain ⟨p0, p', hcan, hpes, hp'⟩ := exec_next_pe hexec
    by_cases hn : n = q
    · subst hn
      obtain rfl : p0 = p := Option.some.inj (hcan.1.symm.trans hp)
      refine ⟨p', ?_, .inr ⟨hcan.2.1, hp'⟩⟩
      rw [hpes]
      exact List.getElem?_set_self (List.getElem?_eq_some_iff.mp hp).1
    · refine ⟨p, ?_, .inl ⟨p.tlb, rfl⟩⟩
      rw [hpes]
      exact (List.getElem?_set_ne hn).trans hp
  · obtain ⟨tlb, htlb⟩ := agentStep_pe (s := s.after rest) hagent hp
    exact ⟨_, htlb, .inl ⟨tlb, rfl⟩⟩

/-- What every step leaves of the machine as a whole: the configuration, the program text and the number of PEs. -/
theorem step_frame {s s' : State} (h : step s = .next s') :
    s'.cfg = s.cfg ∧ s'.mem = s.mem ∧ s'.pes.length = s.pes.length := by
  obtain ⟨n, rest, i, hexec, -⟩ | ⟨m, rest, -, hagent⟩ := step_next h
  · obtain ⟨hcfg, hmem, -⟩ := exec_next_frame hexec
    obtain ⟨p, p', -, hpes, -⟩ := exec_next_pe hexec
    exact ⟨hcfg, hmem, by rw [hpes, List.length_set]; rfl⟩
  · obtain ⟨hcfg, hmem, -⟩ := agentStep_pes hagent
    exact ⟨hcfg, hmem, agentStep_pes_length (s := s.after rest) hagent⟩

/-- Settles O50: a step changes of a PE its TLB, its `pc` or its record. -/
theorem noStepWritesRegistersOrControls : Obligations.NoStepWritesRegistersOrControls := by
  unfold Obligations.NoStepWritesRegistersOrControls
  intro s s' h
  obtain ⟨hcfg, hmem, hlen⟩ := step_frame h
  refine ⟨hcfg, hmem, hlen, fun q p p' hp hp' => ?_⟩
  obtain ⟨p'', hp'', hchange⟩ := step_pe h hp
  obtain rfl : p'' = p' := Option.some.inj (hp''.symm.trans hp')
  obtain ⟨tlb, rfl⟩ | ⟨-, rfl | ⟨r, rfl⟩⟩ := hchange <;> exact ⟨rfl, rfl, rfl, rfl, rfl, rfl⟩

/-- Settles O51: a PE with a record does not execute, and an agent changes a TLB only. -/
theorem exceptionRecordIsNeverCleared : Obligations.ExceptionRecordIsNeverCleared := by
  unfold Obligations.ExceptionRecordIsNeverCleared
  intro s s' q p r h hp hr
  obtain ⟨p', hp', ⟨tlb, rfl⟩ | ⟨hnone, -⟩⟩ := step_pe h hp
  · exact ⟨_, hp', hr, rfl⟩
  · rw [hr] at hnone
    cases hnone

/-- A clearing keeps arguments, issuer, PEs and required sets, and adds nothing to do (41 R87, R98). -/
theorem Op.clear_targets_forall₂ (p : PEId) (e : Entry) (op : Op) :
    List.Forall₂ (fun t' t : Target => t'.pe = t.pe ∧ t'.req = t.req ∧ ∀ e' ∈ t'.todo, e' ∈ t.todo)
      (op.clear p e).targets op.targets := by
  rw [Op.clear_targets, List.forall₂_map_left_iff, List.forall₂_same]
  exact fun t _ => ⟨Target.clear_pe p e t, Target.clear_req p e t, fun e' he' => (Target.mem_clear_todo.mp he').1⟩

/-- Settles O52: an execution appends, a completion takes out, and another agent's step clears at most. -/
theorem requiredSetsAreFixedAtIssue : Obligations.RequiredSetsAreFixedAtIssue := by
  unfold Obligations.RequiredSetsAreFixedAtIssue
  intro s s' h
  obtain ⟨n, rest, i, hexec, hno⟩ | ⟨m, rest, hag, hagent⟩ := step_next h
  · refine ⟨fun _ => ?_, fun k r hk => absurd hk (hno _ _), fun m r hm => absurd hm (hno _ _)⟩
    refine (exec_next_pending hexec).imp_right fun ⟨p, lo, hi, _, hnew⟩ => ⟨_, hnew, fun t ht => ?_⟩
    exact todo_of_mem_newOp_targets ht
  · have hmove : ∀ {m' r}, s.agenda = .agent m' :: r → m' = m := fun hm' => by
      rw [hag] at hm'; cases hm'; rfl
    refine ⟨fun hno => absurd hag (hno _ _), fun k r hk => ?_, fun m' r hm' hnot => ?_⟩
    · obtain rfl := hmove hk
      obtain ⟨op, -, -, rfl⟩ := completeStep_next.mp hagent
      rfl
    · obtain rfl := hmove hm'
      refine (agentStep_pending_forall₂ hagent hnot).imp fun op' op hop => ?_
      obtain rfl | ⟨p, e, rfl⟩ := hop
      · exact ⟨rfl, rfl, List.forall₂_same.mpr fun t _ => ⟨rfl, rfl, fun _ he => he⟩⟩
      · exact ⟨rfl, rfl, Op.clear_targets_forall₂ p e op⟩

/-- Settles O53: an execution changes no TLB, and an agent's step changes one as its move says. -/
theorem tlbsChangeOnlyByAgents : Obligations.TlbsChangeOnlyByAgents := by
  unfold Obligations.TlbsChangeOnlyByAgents
  intro s s' q e h
  obtain ⟨n, rest, i, hexec, -⟩ | ⟨m, rest, hag, hagent⟩ := step_next h
  · have hsame : tlbOf s' q = tlbOf s q := tlbOf_exec hexec q
    rw [hsame]
    exact ⟨fun hin hout => absurd hin hout, fun hout hin => absurd hin hout⟩
  · refine ⟨fun hin hout => ⟨rest, ?_⟩, fun hout hin => ⟨rest, ?_⟩⟩
    · obtain ⟨k, b, rfl⟩ | rfl := not_mem_tlbOf_agentStep hagent hin hout
      · exact .inl ⟨k, b, hag⟩
      · exact .inr hag
    · obtain hold | rfl := mem_tlbOf_agentStep hagent hin
      · exact absurd hold hout
      · exact hag

/-- A scheduled move of an agent is made with the move taken off the agenda (log entry 23). -/
theorem step_of_agenda_agent {s : State} {m : AgentMove} {rest : List Move} (h : s.agenda = .agent m :: rest) :
    step s = agentStep m (s.after rest) := stepPerformsTheScheduledMove s m rest h

/-- Settles O48: at completion nothing is left to do, so by the track nothing required is cached. -/
theorem promiseAfterCompletion : Obligations.PromiseAfterCompletion := by
  unfold Obligations.PromiseAfterCompletion
  intro s s' k rest op htr hag hop h
  rw [step_of_agenda_agent hag] at h
  obtain ⟨op', hop', hcan, rfl⟩ := completeStep_next.mp h
  obtain rfl : op = op' := Option.some.inj (hop.symm.trans hop')
  obtain ⟨htodo, hfree⟩ := canComplete_iff_blocks.mp hcan
  refine ⟨fun t ht e he hcached => ?_, hfree, rfl⟩
  have hleft := htr op (List.mem_of_getElem? hop) t ht e he hcached
  rw [htodo t ht] at hleft
  cases hleft

/-! ### Some schedule completes any operation -/

/-- A run begins with its first step. -/
theorem run_succ {M : Host.Core} {k : Nat} {s s1 : M.State} (h : M.step s = .next s1) :
    M.run (k + 1) s = M.run k s1 := by
  rw [Host.Core.run, h]

/-- A run of scheduled agents' moves goes move by move. -/
theorem run_agent_cons {s s1 : State} {m : AgentMove} {moves : List Move}
    (h : agentStep m (s.after moves) = .next (s1.after moves)) :
    core.run (Move.agent m :: moves).length { s with agenda := .agent m :: moves } =
      core.run moves.length { s1 with agenda := moves } :=
  run_succ (M := core) ((step_of_agenda_agent (s := s.after (.agent m :: moves)) rfl).trans h)

/-- What an operation still has to do, as a list of PEs and entries. -/
def Op.allTodo (op : Op) : List (PEId × Entry) := op.targets.flatMap fun t => t.todo.map fun e => (t.pe, e)

theorem Op.mem_allTodo {op : Op} {p : PEId} {e : Entry} : (p, e) ∈ op.allTodo ↔ op.hasTodo p e = true := by
  simp only [Op.allTodo, List.mem_flatMap, List.mem_map, Prod.mk.injEq, Op.hasTodo_iff]
  constructor
  · rintro ⟨t, ht, e', he', rfl, rfl⟩
    exact ⟨t, ht, rfl, he'⟩
  · rintro ⟨t, ht, rfl, he⟩
    exact ⟨t, ht, e, he, rfl, rfl⟩

/-- Clearing does not change which accesses block: they are told by the required sets (20_memory R43). -/
theorem blocks_clear {op : Op} {p : PEId} {e : Entry} {a : MemAccess} : Blocks (op.clear p e) a ↔ Blocks op a := by
  simp [Blocks]

/-- A change at the place that is then taken out plays no part. -/
theorem eraseIdx_modify_self {α : Type} (k : Nat) (f : α → α) (l : List α) :
    (l.modify k f).eraseIdx k = l.eraseIdx k := by
  rw [List.modify_eq_set_getElem?]
  cases l[k]? with
  | none => rfl
  | some a => exact List.eraseIdx_set_eq

/-- An operation that nothing blocks is brought to completion by removing, one by one, what it still has to do. -/
theorem exists_completing_run (todo : List (PEId × Entry)) : ∀ (s : State) (k : Nat) (op : Op),
    s.pending[k]? = some op → (∀ a ∈ s.accesses, ¬Blocks op a) → (∀ p e, op.hasTodo p e = true → (p, e) ∈ todo) →
    ∃ (moves : List Move) (s' : State), Host.Core.run core moves.length { s with agenda := moves } = .next s' ∧
      s'.pending = s.pending.eraseIdx k ∧ s'.agenda = [] := by
  induction todo with
  | nil =>
    intro s k op hop hfree htodo
    have hdone : ∀ t ∈ op.targets, t.todo = [] := fun t ht =>
      List.eq_nil_iff_forall_not_mem.mpr fun e he =>
        List.not_mem_nil (htodo t.pe e (Op.hasTodo_iff.mpr ⟨t, ht, rfl, he⟩))
    have hcomplete : agentStep (.complete k) (s.after []) =
        .next (State.after { s with pending := s.pending.eraseIdx k } []) :=
      completeStep_next.mpr ⟨op, hop, canComplete_iff_blocks.mpr ⟨hdone, hfree⟩, rfl⟩
    exact ⟨[.agent (.complete k)], _, run_agent_cons hcomplete, rfl, rfl⟩
  | cons pe todo ih =>
    obtain ⟨p, e⟩ := pe
    intro s k op hop hfree htodo
    by_cases hhas : op.hasTodo p e = true
    · have hremove : ∀ rest, agentStep (.remove k p e false) (s.after rest) = .next ((s.removed k p e).after rest) :=
        fun rest => removeStep_unshared.mpr ⟨op, hop, hhas, rfl⟩
      have hop' : (s.removed k p e).pending[k]? = some (op.clear p e) := by
        simp [State.removed, hop]
      obtain ⟨moves, s', hrun, hpending, hag⟩ := ih (s.removed k p e) k (op.clear p e) hop'
        (fun a ha hb => hfree a ha (blocks_clear.mp hb)) fun p' e' h' => by
          obtain ⟨hleft, hne⟩ := Op.hasTodo_clear.mp h'
          exact (List.mem_cons.mp (htodo p' e' hleft)).resolve_left hne
      refine ⟨.agent (.remove k p e false) :: moves, s', (run_agent_cons (hremove moves)).trans hrun, ?_, hag⟩
      rw [hpending]
      exact eraseIdx_modify_self k _ _
    · refine ih s k op hop hfree fun p' e' h' => (List.mem_cons.mp (htodo p' e' h')).resolve_left ?_
      rintro ⟨rfl, rfl⟩
      exact hhas h'

/-- Settles O49: the schedule removes what the operation has to do and completes it; the other operations keep
theirs. -/
theorem everyOperationCanComplete : Obligations.EveryOperationCanComplete := by
  unfold Obligations.EveryOperationCanComplete
  intro s k op hop hfree
  exact exists_completing_run op.allTodo s k op hop hfree fun p e h => Op.mem_allTodo.mpr h

end Sys2Proof.Machine
end
